-- ==== Sys2Proof/Word.lean ====
section
/-!
DEFINITION. The words of the machine: cells and registers are 8 bits (R5, R6), the program counter and
the addresses the fetch forms are 9 bits (R6, R121).
-/

namespace Sys2Proof

/-- A memory cell, a register, an opcode or an operand byte: 8 bits, unsigned (R9, R20, R45). -/
abbrev Byte := BitVec 8

/-- A program-counter value or a memory address on the 9-bit address path (R26, R121). -/
abbrev PcWord := BitVec 9

end Sys2Proof
end

