-- ==== Sys2Proof/Syntax.lean ====
section
/-!
DEFINITION. The 13 instructions of spec/opcode_table.json, whole: their names and their operands. A register
operand is kept as the WHOLE operand byte, because the spec checks it after decoding and faults on 8 to 255 instead
of ignoring its upper bits (R68, R143); WellFormed.lean says which bytes name a register.
-/

namespace Sys2Proof

/-- The 13 mnemonics, in the order of the table of R70. -/
inductive Mnemonic where
  | loadImmediate
  | printReg
  | halt
  | add
  | multiply
  | push
  | pop
  | call
  | ret
  | compare
  | jump
  | jumpIfEqual
  | jumpIfNotEqual
  deriving DecidableEq, Repr

/-- Every mnemonic once, in the order of the table of R70. -/
def Mnemonic.all : List Mnemonic :=
  [.loadImmediate, .printReg, .halt, .add, .multiply, .push, .pop, .call, .ret, .compare,
    .jump, .jumpIfEqual, .jumpIfNotEqual]

/-- The four instruction formats (R66). -/
inductive Format where
  /-- opcode alone -/
  | z
  /-- opcode, register index -/
  | r
  /-- opcode, register index, register index -/
  | rr
  /-- opcode, register index, immediate -/
  | ri
  deriving DecidableEq, Repr

/-- An instruction with its operand bytes: `ra` is operand_a, `rb` or `imm` is operand_b (R65, R66). -/
inductive Instr where
  /-- LOAD_IMMEDIATE (R85) -/
  | loadImmediate (ra imm : Byte)
  /-- PRINT_REG (R86) -/
  | printReg (ra : Byte)
  /-- HALT (R115) -/
  | halt
  /-- ADD (R90) -/
  | add (ra rb : Byte)
  /-- MULTIPLY (R91) -/
  | multiply (ra rb : Byte)
  /-- PUSH (R100) -/
  | push (ra : Byte)
  /-- POP (R101) -/
  | pop (ra : Byte)
  /-- CALL (R105) -/
  | call (ra : Byte)
  /-- RETURN (R106) -/
  | ret
  /-- COMPARE (R92) -/
  | compare (ra rb : Byte)
  /-- JUMP (R107) -/
  | jump (ra : Byte)
  /-- JUMP_IF_EQUAL (R108) -/
  | jumpIfEqual (ra : Byte)
  /-- JUMP_IF_NOT_EQUAL (R109) -/
  | jumpIfNotEqual (ra : Byte)
  deriving DecidableEq, Repr

/-- Which mnemonic an instruction has. -/
def Instr.mnemonic : Instr → Mnemonic
  | .loadImmediate _ _ => .loadImmediate
  | .printReg _ => .printReg
  | .halt => .halt
  | .add _ _ => .add
  | .multiply _ _ => .multiply
  | .push _ => .push
  | .pop _ => .pop
  | .call _ => .call
  | .ret => .ret
  | .compare _ _ => .compare
  | .jump _ => .jump
  | .jumpIfEqual _ => .jumpIfEqual
  | .jumpIfNotEqual _ => .jumpIfNotEqual

/-- The operand bytes that belong to the instruction, operand_a first (R65, R66). -/
def Instr.operands : Instr → List Byte
  | .loadImmediate ra imm => [ra, imm]
  | .printReg ra => [ra]
  | .halt => []
  | .add ra rb => [ra, rb]
  | .multiply ra rb => [ra, rb]
  | .push ra => [ra]
  | .pop ra => [ra]
  | .call ra => [ra]
  | .ret => []
  | .compare ra rb => [ra, rb]
  | .jump ra => [ra]
  | .jumpIfEqual ra => [ra]
  | .jumpIfNotEqual ra => [ra]

/-- The operand bytes the instruction's format declares as register indices, operand_a first (R68). The
immediate of LOAD_IMMEDIATE is not one of them. -/
def Instr.registerOperands : Instr → List Byte
  | .loadImmediate ra _ => [ra]
  | .printReg ra => [ra]
  | .halt => []
  | .add ra rb => [ra, rb]
  | .multiply ra rb => [ra, rb]
  | .push ra => [ra]
  | .pop ra => [ra]
  | .call ra => [ra]
  | .ret => []
  | .compare ra rb => [ra, rb]
  | .jump ra => [ra]
  | .jumpIfEqual ra => [ra]
  | .jumpIfNotEqual ra => [ra]

end Sys2Proof
end

