-- ==== Sys2Proof/Config.lean ====
section
/-!
DEFINITION. The constants the spec fixes (R5, R6) and the two parameters it leaves to the model's user (R7). The
default of OPCODE_MAP stands in Decode.lean beside the decoder. No free value is needed: after the spec's decisions
nothing in the machine is left undefined (93_implementation_defined.md section 1).
-/

namespace Sys2Proof

/-- An `OPCODE_MAP`: one byte for each mnemonic, the 13 bytes pairwise different (R7, R71). -/
structure OpcodeMap where
  byte : Mnemonic → Byte
  injective : ∀ j k : Mnemonic, byte j = byte k → j = k

/-- `MEM_SIZE` (R5). -/
abbrev Config.memSize : Nat := 256

/-- `MEM_FILL`: what a cell holds that the loader has not written (R6, R42). -/
abbrev Config.memFill : Byte := 0x00

/-- The default of `SP_RESET` (R7, R25). DESIGN CHOICE (log entry 2, unsafe): State.reset is fixed at this default,
which the spec marks as general knowledge; State.resetWith takes any value. -/
def Config.spReset : Byte := 0xF4

end Sys2Proof
end

