-- ==== Sys2Proof/Machine/State.lean ====
section
/-!
DEFINITION. The whole state of one machine instance, the tuple (MEM, x[0..7], pc, FL, RUN, FAULT, OUT) of 10_state.md, as plain
data; the state after reset; and the reasons a step can stop.
-/

namespace Sys2Proof.Machine

/-- The flag: exactly one of three states, no bits (R30, R33). -/
inductive Flag where
  | equal
  | greater
  | less
  deriving DecidableEq, Repr

/-- `RUN`, the state of the execution loop (R34). -/
inductive RunState where
  | running
  | halted
  | faulted
  deriving DecidableEq, Repr

/-- The cause of a recorded fault (R35, R160). -/
inductive FaultCause where
  /-- code 0: no fault recorded -/
  | none
  /-- code 1: the opcode byte is not in `OPCODE_MAP` (R161) -/
  | invalidInstruction
  /-- code 2: the ALU was given an operation it does not have; unreachable from any program (R162) -/
  | unsupportedALUOperation
  /-- code 3: a memory address of 256 or more (R163) -/
  | outOfRangeMemory
  /-- code 4: a register operand byte of 8 or more (R164) -/
  | outOfRangeRegister
  deriving DecidableEq, Repr

/-- The fault record `FAULT = (cause, pc, info)` (R35). -/
structure FaultRecord where
  cause : FaultCause
  pc : PcWord
  info : PcWord
  deriving DecidableEq, Repr

/-- The record before any fault: (None, 0, 0) (R35, R42). -/
def FaultRecord.none : FaultRecord := ⟨.none, 0, 0⟩

/-- A fault on its way to being recorded: the `K(info)` of `raise K(info)` (R11). -/
structure Raised where
  cause : FaultCause
  info : PcWord
  deriving DecidableEq, Repr

/-- Memory as the list of its cells that do not hold `MEM_FILL`, addresses strictly rising (log entry 9). -/
abbrev Memory := List Host.Cell

/-- The index of one of the eight registers (R20). -/
abbrev RegIndex := Fin 8

/-- The whole state of the machine (10_state.md). -/
structure State where
  /-- `MEM`: 256 cells of 8 bits (R39, R45) -/
  mem : Memory
  /-- `x[0]` to `x[7]`; `x[7]` is the stack pointer (R20, R24) -/
  regs : Vector Byte 8
  /-- the program counter, 9 bits (R26) -/
  pc : PcWord
  /-- the flag (R30) -/
  fl : Flag
  /-- the run state (R34) -/
  run : RunState
  /-- the fault record (R35) -/
  fault : FaultRecord
  /-- every value presented on the output port since reset, oldest first (R36, R150) -/
  out : List Byte
  deriving DecidableEq, Repr

/-- Why the model's step answers no next state. These are NOT the machine's own faults: those are next states in which
`run` is `faulted` and `fault` holds the record (R166). -/
inductive Fault where
  /-- Raised by `stepWith` when `RUN` is Halted: no step is defined there, only reset leaves it (R34, R126, R140). Safe: the
  machine performs no step either. -/
  | runHalted
  /-- Raised by `stepWith` when `RUN` is Faulted: no step is defined there, only reset leaves it (R34, R126, R140). Safe: the
  machine performs no step either. -/
  | runFaulted
  deriving DecidableEq, Repr

/-- Why an instruction has no meaning in the model. -/
inductive Refusal where
  /-- Raised by an arm of `exec` that has no meaning yet; no arm of this model raises it. Safe. -/
  | notModelled (mnemonic : String)
  deriving DecidableEq, Repr

/-- The state after reset with nothing loaded, for a chosen `SP_RESET` (R42, R190). -/
def State.resetWith (spReset : Byte) : State where
  mem := []
  regs := #v[0x00, 0x00, 0x00, 0x00, 0x00, 0x00, 0x00, spReset]
  pc := 0
  fl := .equal
  run := .running
  fault := FaultRecord.none
  out := []

/-- The state after reset with nothing loaded, at the default `SP_RESET` (R42, R190). DESIGN CHOICE (log entry 2,
unsafe). -/
def State.reset : State := State.resetWith Config.spReset

end Sys2Proof.Machine
end

