-- ==== Sys2Proof/Machine/Ops.lean ====
section
/-!
DEFINITION. The named operations over memory, registers, the program counter and the fault record that the meanings are
written with: the pseudocode primitives of R11.
-/

namespace Sys2Proof.Machine

/-- What a step or a meaning answers. -/
abbrev Result := Host.Outcome State Fault Refusal

/-- `zext_9` (R9). -/
def zext9 (b : Byte) : PcWord := b.setWidth 9

/-- The byte at an address; an unlisted address holds `MEM_FILL` (R42, R45). -/
def Memory.read : Memory → Nat → Byte
  | [], _ => Config.memFill
  | (a, v) :: rest, k => if a = k then v else Memory.read rest k

/-- A cell put into its place in a list whose addresses rise. -/
def Memory.insertCell (c : Host.Cell) : Memory → Memory
  | [] => [c]
  | d :: rest => if c.1 < d.1 then c :: d :: rest else d :: Memory.insertCell c rest

/-- One byte stored at an address. Storing `MEM_FILL` takes the cell out of the list, so equal memories stay equal
data. -/
def Memory.write (mem : Memory) (a : Nat) (v : Byte) : Memory :=
  let others := mem.filter fun c => c.1 != a
  if v = Config.memFill then others else Memory.insertCell (a, v) others

/-- The canonical form: addresses strictly rising and below 256, no cell that holds `MEM_FILL`. -/
abbrev Memory.wf (mem : Memory) : Prop :=
  (mem.map Prod.fst).Pairwise (· < ·) ∧ ∀ c ∈ mem, c.1 < Config.memSize ∧ c.2 ≠ Config.memFill

/-- `x[i]` read (R21). -/
def State.reg (s : State) (i : RegIndex) : Byte := s.regs[i]

/-- `x[i] <- v`: the value is reduced modulo 256 (R11, R22). -/
def State.setReg (s : State) (i : RegIndex) (v : Nat) : State :=
  { s with regs := s.regs.set i (BitVec.ofNat 8 v) }

/-- The index of the stack pointer, `SP_INDEX` = 7 (R5, R24). -/
def spIndex : RegIndex := 7

/-- `SP`, that is `x[7]` (R24). -/
def State.sp (s : State) : Byte := s.reg spIndex

/-- `x[7] <- (x[7] - 1) mod 256`; by R9, minus one modulo 256 is plus 255 modulo 256 (R93). -/
def State.decSp (s : State) : State := s.setReg spIndex (s.sp.toNat + 255)

/-- `x[7] <- (x[7] + 1) mod 256` (R93). -/
def State.incSp (s : State) : State := s.setReg spIndex (s.sp.toNat + 1)

/-- `pc <- t` (R11). -/
def State.setPc (s : State) (t : PcWord) : State := { s with pc := t }

/-- `pc <- p + n`, a 9-bit sum (R28); written once at the end of a meaning, when `pc` still holds `p` (R26). -/
def State.advance (s : State) (n : Nat) : State := s.setPc (s.pc + BitVec.ofNat 9 n)

/-- `FL <- f` (R11). -/
def State.setFlag (s : State) (f : Flag) : State := { s with fl := f }

/-- `OUT <- OUT ++ [v]` (R11, R150). -/
def State.emit (s : State) (v : Byte) : State := { s with out := s.out ++ [v] }

/-- `MemRead(a, 1)` (R11, R46, R48). -/
def memRead (a : PcWord) (s : State) : Except Raised Byte :=
  if a.toNat < Config.memSize then .ok (s.mem.read a.toNat) else .error ⟨.outOfRangeMemory, a⟩

/-- `MemWrite(a, 1, v)` (R11, R47, R48). -/
def memWrite (a : PcWord) (v : Byte) (s : State) : Except Raised State :=
  if a.toNat < Config.memSize then .ok { s with mem := s.mem.write a.toNat v }
  else .error ⟨.outOfRangeMemory, a⟩

/-- TAKING A FAULT, the one shared operation: `RUN <- Faulted; FAULT <- (K, p, info)` and nothing else (R11, R166). `s` is the state at
the start of the step, so its `pc` is `p`. There is no return from a fault (R167). -/
def State.raise (s : State) (r : Raised) : State :=
  { s with run := .faulted, fault := ⟨r.cause, s.pc, r.info⟩ }

/-- Go on with a check's or an access's result, or take the fault it raises in the state `s` of the step's
start. -/
def orRaise {α : Type} (s : State) (r : Except Raised α) (k : α → Result) : Result :=
  match r with
  | .error e => .next (s.raise e)
  | .ok x => k x

end Sys2Proof.Machine
end

