-- ==== Sys2Proof/Machine/Flags.lean ====
section
/-!
DEFINITION. The block `alu_8bit`: add, multiply and the three-way unsigned compare that is the machine's only flag
computation (R90 to R95, R123).
-/

namespace Sys2Proof.Machine

/-- ADD: `(a + b) mod 256`; the adder's carry out is discarded (R90, R93, R123). -/
def aluAdd (a b : Byte) : Byte := BitVec.ofNat 8 (a.toNat + b.toNat)

/-- MULTIPLY: `(a * b) mod 256`; the product's high byte is discarded (R91, R93, R123). -/
def aluMultiply (a b : Byte) : Byte := BitVec.ofNat 8 (a.toNat * b.toNat)

/-- COMPARE: left against right, unsigned (R92). -/
def aluCompare (a b : Byte) : Flag :=
  if a.toNat < b.toNat then .less else if a.toNat > b.toNat then .greater else .equal

/-- What the ALU block gives for one operation: the 8-bit result `y[7:0]`, where the operation has one (COMPARE does not use it), and
the flag after the step (R123). -/
structure AluResult where
  y : Option Byte
  fl : Flag
  deriving DecidableEq, Repr

/-- The ALU block with its 2-bit operation select: 0 ADD, 1 MULTIPLY, 2 COMPARE; 3 is no operation and raises
UnsupportedALUOperation(3) (R95, R123, R162). `fl` is the flag before the step: ADD and MULTIPLY keep it. -/
def alu (op : BitVec 2) (a b : Byte) (fl : Flag) : Except Raised AluResult :=
  if op = 0 then .ok ⟨some (aluAdd a b), fl⟩
  else if op = 1 then .ok ⟨some (aluMultiply a b), fl⟩
  else if op = 2 then .ok ⟨none, aluCompare a b⟩
  else .error ⟨.unsupportedALUOperation, op.setWidth 9⟩

end Sys2Proof.Machine
end

