-- ==== Sys2Proof/WellFormed.lean ====
section
/-!
DEFINITION. Which instructions are well formed: every operand byte the format declares as a register index
is 0 to 7 (R68). An instruction that is not well formed still decodes and still runs: it takes the fault
OutOfRangeAccess(Register) (R143).
-/

namespace Sys2Proof

/-- The byte names one of the eight registers (R68). -/
abbrev NamesRegister (b : Byte) : Prop := b.toNat < 8

/-- Every register operand of the instruction names a register (R68, R194). -/
abbrev Instr.WellFormed (i : Instr) : Prop := ∀ b ∈ i.registerOperands, NamesRegister b

end Sys2Proof
end

