-- ==== Sys2Proof/Machine/Operands.lean ====
section
/-!
DEFINITION. The one operand form that is checked: a register operand byte (R68) and the register-index check that precedes
every execute phase (R143). The immediate is used as it is (R69), so it needs no operation.
-/

namespace Sys2Proof.Machine

/-- The register a byte names, or OutOfRangeAccess(Register, byte) (R68, R143). The whole byte is the index: it is
never reduced modulo 8. -/
def checkIndex (b : Byte) : Except Raised RegIndex :=
  if h : NamesRegister b then .ok ⟨b.toNat, h⟩ else .error ⟨.outOfRangeRegister, zext9 b⟩

/-- Run the execute phase of an instruction with one register operand (R143). -/
def withReg (ra : Byte) (s : State) (k : RegIndex → Result) : Result :=
  orRaise s (checkIndex ra) k

/-- Run the execute phase of an instruction with two register operands: operand_a is checked first (R143). -/
def withRegs (ra rb : Byte) (s : State) (k : RegIndex → RegIndex → Result) : Result :=
  withReg ra s fun i => withReg rb s fun j => k i j

end Sys2Proof.Machine
end

