-- ==== Sys2Proof/Machine/Arith.lean ====
section
/-!
DEFINITION. ADD, MULTIPLY and COMPARE (41_alu.md).
-/

namespace Sys2Proof.Machine

/-- `x[opa] <- (x[opa] + x[opb]) mod 256; pc <- p + 3` (R90). The flag is not written (R31). -/
def execAdd (ra rb : Byte) (s : State) : Result :=
  withRegs ra rb s fun i j => .next ((s.setReg i (aluAdd (s.reg i) (s.reg j)).toNat).advance 3)

/-- `x[opa] <- (x[opa] * x[opb]) mod 256; pc <- p + 3` (R91). The flag is not written (R31). -/
def execMultiply (ra rb : Byte) (s : State) : Result :=
  withRegs ra rb s fun i j => .next ((s.setReg i (aluMultiply (s.reg i) (s.reg j)).toNat).advance 3)

/-- `FL` is set by comparing `x[opa]` with `x[opb]`; `pc <- p + 3` (R92). -/
def execCompare (ra rb : Byte) (s : State) : Result :=
  withRegs ra rb s fun i j => .next ((s.setFlag (aluCompare (s.reg i) (s.reg j))).advance 3)

end Sys2Proof.Machine
end

