-- ==== Sys2Proof/Machine/Control.lean ====
section
/-!
DEFINITION. CALL, RETURN, JUMP, JUMP_IF_EQUAL and JUMP_IF_NOT_EQUAL (43_control.md).
-/

namespace Sys2Proof.Machine

/-- The return address `p + 2` as the 8-bit value CALL stores; it fits whenever a step runs a CALL, since then `p ≤ 253`
(R105, R125). -/
def State.returnAddress (s : State) : Byte := (s.pc + 2).setWidth 8

/-- `x[7] <- (x[7] - 1) mod 256; MemWrite(x[7], 1, p + 2); pc <- zext_9(x[opa])`: `x[opa]` is read after the decrement (R105). -/
def execCall (ra : Byte) (s : State) : Result :=
  withReg ra s fun i =>
    let s₁ := s.decSp
    orRaise s (memWrite (zext9 s₁.sp) s.returnAddress s₁) fun s₂ => .next (s₂.setPc (zext9 (s₂.reg i)))

/-- `pc <- zext_9(MemRead(x[7], 1)); x[7] <- (x[7] + 1) mod 256` (R106). -/
def execRet (s : State) : Result :=
  orRaise s (memRead (zext9 s.sp) s) fun v => .next ((s.setPc (zext9 v)).incSp)

/-- `pc <- zext_9(x[opa])`, no flag interaction (R107, C1). -/
def execJump (ra : Byte) (s : State) : Result :=
  withReg ra s fun i => .next (s.setPc (zext9 (s.reg i)))

/-- `if FL == Equal then pc <- zext_9(x[opa]) else pc <- p + 2` (R108). -/
def execJumpIfEqual (ra : Byte) (s : State) : Result :=
  withReg ra s fun i => .next (if s.fl = .equal then s.setPc (zext9 (s.reg i)) else s.advance 2)

/-- `if FL != Equal then pc <- zext_9(x[opa]) else pc <- p + 2` (R109). -/
def execJumpIfNotEqual (ra : Byte) (s : State) : Result :=
  withReg ra s fun i => .next (if s.fl ≠ .equal then s.setPc (zext9 (s.reg i)) else s.advance 2)

end Sys2Proof.Machine
end

