-- ==== Sys2Proof/Machine/MoveIo.lean ====
section
/-!
DEFINITION. LOAD_IMMEDIATE and PRINT_REG (40_move_io.md).
-/

namespace Sys2Proof.Machine

/-- `x[opa] <- opb; pc <- p + 3` (R85). -/
def execLoadImmediate (ra imm : Byte) (s : State) : Result :=
  withReg ra s fun i => .next ((s.setReg i imm.toNat).advance 3)

/-- `OUT <- OUT ++ [x[opa]]; pc <- p + 2` (R86). -/
def execPrintReg (ra : Byte) (s : State) : Result :=
  withReg ra s fun i => .next ((s.emit (s.reg i)).advance 2)

end Sys2Proof.Machine
end

