-- ==== Sys2Proof/Machine/Stack.lean ====
section
/-!
DEFINITION. PUSH and POP (42_stack.md). The statements run in the order the spec writes them, each seeing the writes of those
before it, which matters where the operand is R7 (R11).
-/

namespace Sys2Proof.Machine

/-- `x[7] <- (x[7] - 1) mod 256; MemWrite(x[7], 1, x[opa]); pc <- p + 2`: `x[opa]` is read after the decrement (R100). -/
def execPush (ra : Byte) (s : State) : Result :=
  withReg ra s fun i =>
    let s₁ := s.decSp
    orRaise s (memWrite (zext9 s₁.sp) (s₁.reg i) s₁) fun s₂ => .next (s₂.advance 2)

/-- `x[opa] <- MemRead(x[7], 1); x[7] <- (x[7] + 1) mod 256; pc <- p + 2`: the increment applies to R7 as the destination
write left it (R101). -/
def execPop (ra : Byte) (s : State) : Result :=
  withReg ra s fun i =>
    orRaise s (memRead (zext9 s.sp) s) fun v => .next ((s.setReg i v.toNat).incSp.advance 2)

end Sys2Proof.Machine
end

