-- ==== Sys2Proof/Machine/System.lean ====
section
/-!
DEFINITION. HALT, the only system instruction (44_system.md).
-/

namespace Sys2Proof.Machine

/-- `RUN <- Halted`; nothing else changes, `pc` stays at the HALT opcode (R115). -/
def execHalt (s : State) : Result := .next { s with run := .halted }

end Sys2Proof.Machine
end

