-- ==== Sys2Proof/Machine/Dispatch.lean ====
section
/-!
DEFINITION. The dispatch of a decoded instruction to its meaning, one arm per constructor. A meaning is the
register-index check and the execute phase (R143, R144) of an instruction at the state of the step's start.
-/

namespace Sys2Proof.Machine

def exec (i : Instr) (s : State) : Host.Outcome State Fault Refusal :=
  match i with
  | .loadImmediate ra imm => Sys2Proof.Machine.execLoadImmediate ra imm s
  | .printReg ra => Sys2Proof.Machine.execPrintReg ra s
  | .halt => Sys2Proof.Machine.execHalt s
  | .add ra rb => Sys2Proof.Machine.execAdd ra rb s
  | .multiply ra rb => Sys2Proof.Machine.execMultiply ra rb s
  | .push ra => Sys2Proof.Machine.execPush ra s
  | .pop ra => Sys2Proof.Machine.execPop ra s
  | .call ra => Sys2Proof.Machine.execCall ra s
  | .ret => Sys2Proof.Machine.execRet s
  | .compare ra rb => Sys2Proof.Machine.execCompare ra rb s
  | .jump ra => Sys2Proof.Machine.execJump ra s
  | .jumpIfEqual ra => Sys2Proof.Machine.execJumpIfEqual ra s
  | .jumpIfNotEqual ra => Sys2Proof.Machine.execJumpIfNotEqual ra s

end Sys2Proof.Machine
end

