-- ==== Sys2Proof/Decode.lean ====
section
/-!
DEFINITION. The instruction decoder (R65 to R74, R142) and, after it, the encoder. Both take the `OPCODE_MAP` as an
argument; the default map of R70 stands here too. Decoding looks at the opcode byte alone (R74, R142).
-/

namespace Sys2Proof

/-- The default opcode bytes (R70). DESIGN CHOICE (log entry 1, unsafe for byte programs written for another map):
`decode` and `step` are fixed at this map, which the spec marks as general
knowledge. -/
def defaultOpcode : Mnemonic → Byte
  | .loadImmediate => 0b10000010
  | .printReg => 0b01000111
  | .halt => 0b00000001
  | .add => 0b10100000
  | .multiply => 0b10100010
  | .push => 0b01000101
  | .pop => 0b01000110
  | .call => 0b01010000
  | .ret => 0b00010001
  | .compare => 0b10100111
  | .jump => 0b01010100
  | .jumpIfEqual => 0b01010101
  | .jumpIfNotEqual => 0b01010110

/-- The 13 default bytes are pairwise different (R71). -/
theorem defaultOpcode_injective (j k : Mnemonic) (h : defaultOpcode j = defaultOpcode k) : j = k := by
  cases j <;> cases k <;> first | rfl | exact absurd h (by decide)

/-- The default `OPCODE_MAP` (R70). -/
def defaultOpcodeMap : OpcodeMap := ⟨defaultOpcode, defaultOpcode_injective⟩

/-- The format of each mnemonic (R66); it does not depend on the opcode map (R71). -/
def formatOf : Mnemonic → Format
  | .loadImmediate => .ri
  | .printReg => .r
  | .halt => .z
  | .add => .rr
  | .multiply => .rr
  | .push => .r
  | .pop => .r
  | .call => .r
  | .ret => .z
  | .compare => .rr
  | .jump => .r
  | .jumpIfEqual => .r
  | .jumpIfNotEqual => .r

/-- How many operand bytes a format has (R66). -/
def operandCount : Format → Nat
  | .z => 0
  | .r => 1
  | .rr => 2
  | .ri => 2

/-- The length of an instruction in bytes, a function of its opcode alone (R65, R74). -/
def lengthOf (k : Mnemonic) : Nat := 1 + operandCount (formatOf k)

/-- Why bytes are not an instruction. -/
inductive DecodeError where
  /-- The opcode byte is none of the map's 13 values (R72); the step takes InvalidInstruction. -/
  | invalidInstruction (opcode : Byte)
  /-- A byte list ends inside an instruction. Only `decodeBytes` answers it; the step always fetches three bytes. -/
  | truncated
  deriving DecidableEq, Repr

/-- The dispatch table: the mnemonic whose opcode is exactly this byte, if there is one (R70, R142). -/
def findMnemonic (m : OpcodeMap) (ir : Byte) : Option Mnemonic :=
  Mnemonic.all.find? fun k => m.byte k == ir

/-- The instruction of a mnemonic with the two candidate operand bytes. A byte the format does not use is
ignored (R67). -/
def buildInstr : Mnemonic → Byte → Byte → Instr
  | .loadImmediate, opa, opb => .loadImmediate opa opb
  | .printReg, opa, _ => .printReg opa
  | .halt, _, _ => .halt
  | .add, opa, opb => .add opa opb
  | .multiply, opa, opb => .multiply opa opb
  | .push, opa, _ => .push opa
  | .pop, opa, _ => .pop opa
  | .call, opa, _ => .call opa
  | .ret, _, _ => .ret
  | .compare, opa, opb => .compare opa opb
  | .jump, opa, _ => .jump opa
  | .jumpIfEqual, opa, _ => .jumpIfEqual opa
  | .jumpIfNotEqual, opa, _ => .jumpIfNotEqual opa

/-- The decoder on the three fetched bytes (R142): it looks the opcode up and takes the operands the format
declares. -/
def decodeWith (m : OpcodeMap) (ir opa opb : Byte) : Except DecodeError Instr :=
  match findMnemonic m ir with
  | none => .error (.invalidInstruction ir)
  | some k => .ok (buildInstr k opa opb)

/-- The decoder at the default map. -/
def decode (ir opa opb : Byte) : Except DecodeError Instr := decodeWith defaultOpcodeMap ir opa opb

/-- The operands of a mnemonic taken off a byte list; none where the list is too short. -/
def takeOperands (k : Mnemonic) (bytes : List Byte) : Option (Instr × List Byte) :=
  match operandCount (formatOf k), bytes with
  | 0, rest => some (buildInstr k 0 0, rest)
  | 1, opa :: rest => some (buildInstr k opa 0, rest)
  | 2, opa :: opb :: rest => some (buildInstr k opa opb, rest)
  | _, _ => none

/-- The decoder on any byte list: the first instruction and the bytes after it. An instruction takes exactly
its own length (R65), so bytes laid one after the other are read one after the other. DESIGN CHOICE (log entry
10, safe): a list that ends inside an instruction is refused as `truncated`. -/
def decodeBytes (m : OpcodeMap) : List Byte → Except DecodeError (Instr × List Byte)
  | [] => .error .truncated
  | ir :: bytes =>
    match findMnemonic m ir with
    | none => .error (.invalidInstruction ir)
    | some k =>
      match takeOperands k bytes with
      | none => .error .truncated
      | some r => .ok r

/-- At most `fuel` instructions read off a byte list, until the list is empty. -/
def decodeProgramFuel (m : OpcodeMap) : Nat → List Byte → Except DecodeError (List Instr)
  | _, [] => .ok []
  | 0, _ :: _ => .error .truncated
  | fuel + 1, b :: bytes =>
    match decodeBytes m (b :: bytes) with
    | .error e => .error e
    | .ok (i, rest) =>
      match decodeProgramFuel m fuel rest with
      | .error e => .error e
      | .ok is => .ok (i :: is)

/-- A whole byte list read as instructions laid one after the other. -/
def decodeProgram (m : OpcodeMap) (bytes : List Byte) : Except DecodeError (List Instr) :=
  decodeProgramFuel m bytes.length bytes

/-- The bytes of an instruction, the opcode at the lowest address (R50, R65, R66). -/
def encode (m : OpcodeMap) (i : Instr) : List Byte := m.byte i.mnemonic :: i.operands

/-- The bytes of a program: its instructions laid one after the other (R191). -/
def encodeProgram (m : OpcodeMap) (is : List Instr) : List Byte := (is.map (encode m)).flatten

/-- The three fetch bytes of an instruction whose bits are `w` as spec/opcode_table.json numbers them: byte 0 is the least
significant. Bits at `nbits` and above are 0. -/
def tableWordBytes (nbits w : Nat) : Byte × Byte × Byte :=
  let v := w % 2 ^ nbits
  (BitVec.ofNat 8 v, BitVec.ofNat 8 (v / 2 ^ 8), BitVec.ofNat 8 (v / 2 ^ 16))

/-- What the default decoder reads from a table word; none where it refuses. -/
def decodeTableWord (nbits w : Nat) : Option Instr :=
  match tableWordBytes nbits w with
  | (ir, opa, opb) => (decode ir opa opb).toOption

end Sys2Proof
end

