-- ==== Sys2Proof/Machine/Fetch.lean ====
section
/-!
DEFINITION. The fetch (R141) and the decode (R142) of a step, and the placing of an instruction's bytes where the next fetch
reads them.
-/

namespace Sys2Proof.Machine

/-- The fetch: the bytes at `p`, `p + 1` and `p + 2`, always three, in this order; the first address that is out of range
raises (R141). The sums are 9-bit; a sum that would wrap has already raised at `p`. -/
def fetch (s : State) : Except Raised (Byte × Byte × Byte) :=
  match memRead s.pc s with
  | .error e => .error e
  | .ok ir =>
    match memRead (s.pc + 1) s with
    | .error e => .error e
    | .ok opa =>
      match memRead (s.pc + 2) s with
      | .error e => .error e
      | .ok opb => .ok (ir, opa, opb)

/-- Fetch, then decode: the instruction at `pc`, or the fault the step raises before it has one (R140 to R142, R165). -/
def fetchDecode (m : OpcodeMap) (s : State) : Except Raised Instr :=
  match fetch s with
  | .error e => .error e
  | .ok (ir, opa, opb) =>
    match decodeWith m ir opa opb with
    | .error _ => .error ⟨.invalidInstruction, zext9 ir⟩
    | .ok i => .ok i

/-- One byte put at an address as the loader would; an address outside memory holds nothing. -/
def placeByte (a : Nat) (v : Byte) (s : State) : State :=
  if a < Config.memSize then { s with mem := s.mem.write a v } else s

/-- Three bytes put where the next fetch reads them. -/
def placeAtPc (bytes : Byte × Byte × Byte) (s : State) : State :=
  placeByte (s.pc.toNat + 2) bytes.2.2
    (placeByte (s.pc.toNat + 1) bytes.2.1 (placeByte s.pc.toNat bytes.1 s))

end Sys2Proof.Machine
end

