-- ==== Sys2Proof/Machine/Step.lean ====
section
/-!
DEFINITION. The step: fetch, decode, register-index check, execute (R140). It is a function of the state alone (R146).
-/

namespace Sys2Proof.Machine

/-- One step under a chosen `OPCODE_MAP` (R140). Defined exactly when `RUN` is Running: in Halted and in Faulted the machine performs
no step (R34, R126), and this function stops by name (log entry 3). A fault of the machine is a next state (R166). -/
def stepWith (m : OpcodeMap) (s : State) : Host.Outcome State Fault Refusal :=
  match s.run with
  | .halted => .fault .runHalted
  | .faulted => .fault .runFaulted
  | .running => orRaise s (fetchDecode m s) fun i => exec i s

/-- One step at the default `OPCODE_MAP` (log entry 1). -/
def step (s : State) : Host.Outcome State Fault Refusal := stepWith defaultOpcodeMap s

/-- The state with an instruction, given as its table word, stored at `pc`, where the next step fetches it. It stands for the
program load of R191 (log entry 6). -/
def State.withFetchWord (s : State) (nbits w : Nat) : State := placeAtPc (tableWordBytes nbits w) s

end Sys2Proof.Machine
end

