-- ==== Sys2Proof/Machine/Blocks.lean ====
section
/-!
DEFINITION. The block view of a step: the decoder's control word for each instruction, written from the table of R124 and from nothing
else, and the datapath that obeys a control word with the blocks `register_file`, `alu_8bit`, `memory_array` and `pc_sequencer` (R120 to R126).
`exec` is written from the instruction rules; that the two agree is a statement about the model.
-/

namespace Sys2Proof.Machine

/-- The column "register write" of R124. -/
inductive RegWrite where
  | none
  | opb
  | aluResult
  | memData
  deriving DecidableEq, Repr

/-- The column "SP update" of R124. -/
inductive SpUpdate where
  | none
  | decrementFirst
  | incrementLast
  deriving DecidableEq, Repr

/-- The column "memory access" of R124. -/
inductive MemAccess where
  | none
  /-- write `x[opa]` at the new SP -/
  | writeRegAtNewSp
  /-- write `p + 2` at the new SP -/
  | writeReturnAtNewSp
  /-- read at the old SP -/
  | readAtOldSp
  deriving DecidableEq, Repr

/-- The column "next pc" of R124. -/
inductive NextPc where
  | plus (n : Nat)
  | hold
  | regA
  | memData
  /-- `x[opa]` if `FL == Equal`, else `p + 2` -/
  | regAIfEqual
  /-- `x[opa]` if `FL != Equal`, else `p + 2` -/
  | regAIfNotEqual
  deriving DecidableEq, Repr

/-- A row of the control table (R124); its ALU operation is the 2-bit select of R123. -/
structure ControlWord where
  format : Format
  len : Nat
  checkA : Bool
  checkB : Bool
  aluOp : Option (BitVec 2)
  regWrite : RegWrite
  spUpdate : SpUpdate
  memAccess : MemAccess
  output : Bool
  nextPc : NextPc
  run : RunState
  deriving DecidableEq, Repr

/-- The control table of R124, row by row. -/
def controlWord : Mnemonic → ControlWord
  | .loadImmediate => ⟨.ri, 3, true, false, none, .opb, .none, .none, false, .plus 3, .running⟩
  | .printReg => ⟨.r, 2, true, false, none, .none, .none, .none, true, .plus 2, .running⟩
  | .halt => ⟨.z, 1, false, false, none, .none, .none, .none, false, .hold, .halted⟩
  | .add => ⟨.rr, 3, true, true, some 0, .aluResult, .none, .none, false, .plus 3, .running⟩
  | .multiply => ⟨.rr, 3, true, true, some 1, .aluResult, .none, .none, false, .plus 3, .running⟩
  | .push => ⟨.r, 2, true, false, none, .none, .decrementFirst, .writeRegAtNewSp, false, .plus 2, .running⟩
  | .pop => ⟨.r, 2, true, false, none, .memData, .incrementLast, .readAtOldSp, false, .plus 2, .running⟩
  | .call => ⟨.r, 2, true, false, none, .none, .decrementFirst, .writeReturnAtNewSp, false, .regA, .running⟩
  | .ret => ⟨.z, 1, false, false, none, .none, .incrementLast, .readAtOldSp, false, .memData, .running⟩
  | .compare => ⟨.rr, 3, true, true, some 2, .none, .none, .none, false, .plus 3, .running⟩
  | .jump => ⟨.r, 2, true, false, none, .none, .none, .none, false, .regA, .running⟩
  | .jumpIfEqual => ⟨.r, 2, true, false, none, .none, .none, .none, false, .regAIfEqual, .running⟩
  | .jumpIfNotEqual => ⟨.r, 2, true, false, none, .none, .none, .none, false, .regAIfNotEqual, .running⟩

/-- The register-index check where the control word asks for it (R143). -/
def checkIf (wanted : Bool) (b : Byte) : Except Raised (Option RegIndex) :=
  if wanted then (checkIndex b).map some else .ok none

/-- A read port's value; a port whose operand is no register drives nothing that is used (R122). -/
def readPort (i : Option RegIndex) (s : State) : Byte :=
  match i with
  | some i => s.reg i
  | none => 0

/-- The ALU driven by the control word; without an operation the flag is kept (R123). -/
def driveAlu (op : Option (BitVec 2)) (a b : Byte) (fl : Flag) : Except Raised AluResult :=
  match op with
  | some op => alu op a b fl
  | none => .ok ⟨none, fl⟩

/-- The memory access of the control word at the stack pointer: the data read, if any, and the state after it (R121). -/
def driveMemory (acc : MemAccess) (a ret : Byte) (s : State) : Except Raised (Byte × State) :=
  match acc with
  | .none => .ok (0, s)
  | .writeRegAtNewSp => (memWrite (zext9 s.sp) a s).map fun t => (0, t)
  | .writeReturnAtNewSp => (memWrite (zext9 s.sp) ret s).map fun t => (0, t)
  | .readAtOldSp => (memRead (zext9 s.sp) s).map fun v => (v, s)

/-- The general write port of the register file (R122). -/
def driveRegWrite (w : RegWrite) (i : Option RegIndex) (opb : Byte) (y : Option Byte) (data : Byte) (s : State) : State :=
  match w, i, y with
  | .opb, some i, _ => s.setReg i opb.toNat
  | .aluResult, some i, some y => s.setReg i y.toNat
  | .memData, some i, _ => s.setReg i data.toNat
  | _, _, _ => s

/-- What `pc_sequencer` loads at the end of the step (R125): `p` is the opcode's address, `a` the value of `x[opa]`,
`fl` the flag before the step. -/
def selectPc (n : NextPc) (p : PcWord) (a data : Byte) (fl : Flag) : PcWord :=
  match n with
  | .plus k => p + BitVec.ofNat 9 k
  | .hold => p
  | .regA => zext9 a
  | .memData => zext9 data
  | .regAIfEqual => if fl = .equal then zext9 a else p + 2
  | .regAIfNotEqual => if fl ≠ .equal then zext9 a else p + 2

/-- The execute phase as the blocks perform it for the control word `c`: SP decrement; register read and ALU; memory access; register write;
output; SP increment; pc, flag and run state (R120 to R126). DEDUCED (log entry 11, safe): R122 says that the SP update and the general
write are applied in the statement order of the instruction's pseudocode, and this is that order. -/
def datapath (c : ControlWord) (i j : Option RegIndex) (opb : Byte) (s : State) : Result :=
  let s₁ := match c.spUpdate with
    | .decrementFirst => s.decSp
    | _ => s
  let a := readPort i s₁
  orRaise s (driveAlu c.aluOp a (readPort j s₁) s.fl) fun r =>
  orRaise s (driveMemory c.memAccess a ((s.pc + 2).setWidth 8) s₁) fun d =>
    let s₂ := driveRegWrite c.regWrite i opb r.y d.1 d.2
    let s₃ := if c.output then s₂.emit a else s₂
    let s₄ := match c.spUpdate with
      | .incrementLast => s₃.incSp
      | _ => s₃
    .next { s₄ with pc := selectPc c.nextPc s.pc a d.1 s.fl, fl := r.fl, run := c.run }

/-- Check, then execute, for a mnemonic and the two candidate operand bytes (R143, R144). -/
def blockExec (k : Mnemonic) (opa opb : Byte) (s : State) : Result :=
  let c := controlWord k
  orRaise s (checkIf c.checkA opa) fun i =>
  orRaise s (checkIf c.checkB opb) fun j => datapath c i j opb s

/-- One step of the six blocks, as the pseudocode of R140 writes it, with the decoder's control word in the place of the
instruction rules. -/
def blockStep (m : OpcodeMap) (s : State) : Result :=
  match s.run with
  | .halted => .fault .runHalted
  | .faulted => .fault .runFaulted
  | .running =>
    orRaise s (fetch s) fun b =>
      match findMnemonic m b.1 with
      | none => .next (s.raise ⟨.invalidInstruction, zext9 b.1⟩)
      | some k => blockExec k b.2.1 b.2.2 s

end Sys2Proof.Machine
end

