-- ==== Sys2Proof/Machine/HostPort.lean ====
section
/-!
DEFINITION. What the host does to the machine and sees of it (R149): reset, the load port, the status outputs, the trace, and the
host's rendering of the output stream and of the end of a run. None of it is part of a step.
-/

namespace Sys2Proof.Machine

/-- Asserting `rst`, at any time: every element takes its reset value, nothing survives (R190). -/
def hostReset (spReset : Byte) (_ : State) : State := State.resetWith spReset

/-- One write of the load port during reset: `MEM[load_addr] <- load_data` (R128, R191). -/
def loadWrite (addr data : Byte) (s : State) : State := { s with mem := s.mem.write addr.toNat data }

/-- The loader's writes: byte after byte at rising addresses from `a` (R191). -/
def loadFrom : Nat → List Byte → State → State
  | _, [], s => s
  | a, b :: bytes, s => loadFrom (a + 1) bytes (loadWrite (BitVec.ofNat 8 a) b s)

/-- Reset and load of a program from address 0; a program of more than 256 bytes is refused by the host (R149, R191, R192). -/
def hostLoad (spReset : Byte) (program : List Byte) : Option State :=
  if program.length ≤ Config.memSize then some (loadFrom 0 program (State.resetWith spReset)) else none

/-- The output `halted` (R126). -/
def State.haltedOut (s : State) : Bool := s.run == .halted

/-- The output `faulted` (R126). -/
def State.faultedOut (s : State) : Bool := s.run == .faulted

/-- The output `fault_cause[2:0]`, by the codes of R160. -/
def causeCode : FaultCause → BitVec 3
  | .none => 0
  | .invalidInstruction => 1
  | .unsupportedALUOperation => 2
  | .outOfRangeMemory => 3
  | .outOfRangeRegister => 4

/-- The known opcode set, a constant of the map, which the host reports with an InvalidInstruction beside the opcode in `FAULT.info`
(R35, R72, R161). -/
def knownOpcodes (m : OpcodeMap) : List Byte := Mnemonic.all.map m.byte

/-- What the debug port shows (R128, R174). -/
structure Trace where
  pc : PcWord
  /-- the bytes at `pc`, `pc + 1`, `pc + 2`; where the address is out of range the trace shows no defined value (R174), which the model writes
  as `none` (DESIGN CHOICE, log entry 13) -/
  bytes : List (Option Byte)
  regs : Vector Byte 8
  deriving DecidableEq, Repr

/-- A byte as the trace reads it: no fault, no effect (R174). -/
def traceByte (a : Nat) (s : State) : Option Byte :=
  if a < Config.memSize then some (s.mem.read a) else none

/-- The diagnostic trace (R174). -/
def State.trace (s : State) : Trace where
  pc := s.pc
  bytes := [traceByte s.pc.toNat s, traceByte (s.pc.toNat + 1) s, traceByte (s.pc.toNat + 2) s]
  regs := s.regs

/-- The character code of a decimal digit. DESIGN CHOICE (log entry 14, unsafe): R36 says decimal digits and gives no character code for them
(R8 gives a byte only for the line break); the model takes the ASCII codes 0x30 to 0x39. -/
def digitCode (n : Nat) : Byte := BitVec.ofNat 8 (0x30 + n)

/-- The decimal digits of a value, without sign and without leading zeros, `0` for zero (R36), each as its `digitCode`
(log entry 14). -/
def decimalText (v : Byte) : List Byte :=
  let n := v.toNat
  if n < 10 then [digitCode n]
  else if n < 100 then [digitCode (n / 10), digitCode (n % 10)]
  else [digitCode (n / 100), digitCode (n / 10 % 10), digitCode (n % 10)]

/-- The default of the host's line-break byte, LF (R8). -/
def defaultLineBreak : Byte := 0x0A

/-- The text the host's sink shows for an output stream: for each value its digits and one line break (R36). -/
def sinkText (lineBreak : Byte) (out : List Byte) : List Byte :=
  (out.map fun v => decimalText v ++ [lineBreak]).flatten

/-- The default of the host's `EXIT_FAULT` (R8). -/
def defaultExitFault : Nat := 1

/-- The host's exit status for a run state: 0 for Halted, `EXIT_FAULT` for Faulted, none while the run goes on (R8, R149, R167). -/
def exitStatus (exitFault : Nat) : RunState → Option Nat
  | .running => none
  | .halted => some 0
  | .faulted => some exitFault

end Sys2Proof.Machine
end

