-- ==== Sys2Proof/Safety.lean ====
section
/-!
DEFINITION. What counts as a safe state and a completed run, in the terms the statements use.
-/

namespace Sys2Proof.Machine

/-- The program counter is one of its reachable values, 0 to 256 (R29). -/
abbrev State.PcInRange (s : State) : Prop := s.pc.toNat ≤ 256

/-- A step's fetch succeeds here: the opcode's address is at most 253 (R141, R195). -/
abbrev State.CanFetch (s : State) : Prop := s.pc.toNat ≤ 253

/-- The byte `n` places after `pc`, for a state whose fetch succeeds. -/
abbrev State.codeByte (s : State) (n : Nat) : Byte := s.mem.read (s.pc.toNat + n)

/-- A fault record describes the fault that is recorded, for each cause a program can raise (R35, R160). It is read against memory
as it stands, which is as it was before the faulting step (R166). -/
abbrev FaultRecord.Describes (f : FaultRecord) (s : State) : Prop :=
  (f.cause = .invalidInstruction ∧ s.CanFetch ∧ f.info = zext9 (s.codeByte 0)) ∨
  (f.cause = .outOfRangeMemory ∧ ¬ s.CanFetch ∧ f.info = 256) ∨
  (f.cause = .outOfRangeRegister ∧ s.CanFetch ∧ 8 ≤ f.info.toNat ∧
    (f.info = zext9 (s.codeByte 1) ∨ f.info = zext9 (s.codeByte 2)))

/-- The fault record and the run state go together: a record exactly in Faulted, about the opcode address `pc` (R35, R166). -/
abbrev State.FaultMatchesRun (s : State) : Prop :=
  (s.run ≠ .faulted → s.fault = FaultRecord.none) ∧
  (s.run = .faulted → s.fault.pc = s.pc ∧ s.fault.Describes s)

/-- The invariant of the machine: memory in its canonical form, `pc` in its reachable range, the fault record as the run state
says. -/
abbrev State.Inv (s : State) : Prop := s.mem.wf ∧ s.PcInRange ∧ s.FaultMatchesRun

/-- What every instruction rule lists first under "Exceptions": a step at a reachable opcode address above 253 takes
OutOfRangeAccess(Memory, 256) in its fetch, whatever stands there (R141, R163). -/
abbrev State.FetchFaultsAboveTop (s : State) : Prop :=
  ∀ m : OpcodeMap, s.run = .running → s.PcInRange → ¬ s.CanFetch →
    stepWith m s = .next (s.raise ⟨.outOfRangeMemory, 256⟩)

/-- The run ran to completion: Halted, never Faulted (R148, R167). -/
abbrev State.Completed (s : State) : Prop := s.run = .halted

end Sys2Proof.Machine
end

