-- ==== Sys2Proof/Certificates/Slice0/Obligations.lean ====
section
/-!
DEFINITION. The statements for the provers. `x[i]` of the spec is `s.reg i`, `MEM[a]` is `s.mem.read a`, `p` is `s.pc` at the start of
a step. Statements about steps quantify over the `OPCODE_MAP` `m` wherever the spec's rule does not name opcode bytes (R7, R71);
`step` is `stepWith defaultOpcodeMap`.
-/

open Sys2Proof Sys2Proof.Machine

/-! ## Reset, load and start -/

/-- R190: reset, from any state and for any `SP_RESET`, gives every state element its reset value with no program loaded; nothing
survives. That State.reset is the one with 0xF4 is the model's choice (log entry 2). -/
def Obligations.ResetGivesEveryElementItsValue : Prop :=
  (∀ (sp : Byte) (s : State), (∀ a, (hostReset sp s).mem.read a = 0x00) ∧
    (∀ j : RegIndex, (hostReset sp s).reg j = if j = 7 then sp else 0x00) ∧
    (hostReset sp s).pc = 0 ∧ (hostReset sp s).fl = .equal ∧ (hostReset sp s).run = .running ∧
    (hostReset sp s).fault = ⟨.none, 0, 0⟩ ∧ (hostReset sp s).out = []) ∧
  ∀ s : State, hostReset 0xF4 s = State.reset

/-- R42, R191: after reset and program load the state is as R42 collects it, for every program of at most 256 bytes; a longer one is
refused. -/
def Obligations.LoadPlacesProgramFromZero : Prop :=
  ∀ (sp : Byte) (program : List Byte),
    (program.length ≤ 256 → ∃ s, hostLoad sp program = some s ∧
      (∀ a, s.mem.read a = program.getD a 0x00) ∧
      (∀ j : RegIndex, s.reg j = if j = 7 then sp else 0x00) ∧
      s.pc = 0 ∧ s.fl = .equal ∧ s.run = .running ∧ s.fault = ⟨.none, 0, 0⟩ ∧ s.out = []) ∧
    (256 < program.length → hostLoad sp program = none)

/-- R192: the first step after a load fetches the cells 0, 1 and 2; with an empty program (the model's State.reset) it takes
InvalidInstruction(0x00). Rests on the default map (log entry 1). -/
def Obligations.FirstStepFetchesAtZero : Prop :=
  (∀ (sp : Byte) (program : List Byte) (s : State), hostLoad sp program = some s →
    fetch s = .ok (program.getD 0 0x00, program.getD 1 0x00, program.getD 2 0x00)) ∧
  step State.reset = .next { State.reset with run := .faulted, fault := ⟨.invalidInstruction, 0, 0⟩ }

/-- R141: the fetch reads the bytes at `p`, `p + 1` and `p + 2` exactly when `p` is at most 253, and otherwise raises OutOfRangeAccess(Memory) with
the first address out of range: 256 for every reachable `p`, and, by the model's inference (log entry 5), `p` itself beyond. -/
def Obligations.FetchReadsThreeBytes : Prop :=
  ∀ s : State,
    (s.pc.toNat ≤ 253 → fetch s = .ok (s.mem.read s.pc.toNat, s.mem.read (s.pc.toNat + 1), s.mem.read (s.pc.toNat + 2))) ∧
    (253 < s.pc.toNat → s.pc.toNat ≤ 256 → fetch s = .error ⟨.outOfRangeMemory, 256⟩) ∧
    (256 < s.pc.toNat → fetch s = .error ⟨.outOfRangeMemory, s.pc⟩)

/-! ## Decoding and encoding -/

/-- When the three bytes at `pc` decode to an instruction, a step of a Running machine is `exec` of it, for every opcode map; `step` is that
at the default map. Nothing is added around `exec`: `exec` itself writes `pc`. -/
def Obligations.StepRunsTheDecodedInstruction : Prop :=
  (∀ (m : OpcodeMap) (s : State) (i : Instr), s.run = .running → s.CanFetch →
    decodeWith m (s.codeByte 0) (s.codeByte 1) (s.codeByte 2) = .ok i → stepWith m s = exec i s) ∧
  (∀ (s : State) (i : Instr), s.run = .running → s.CanFetch →
    decode (s.codeByte 0) (s.codeByte 1) (s.codeByte 2) = .ok i → step s = exec i s)

/-- Words written out from the table of R70, one of each format and one of each family; `decode` is at the default map by the model's choice (log
entry 1). -/
def Obligations.WrittenWordsDecode : Prop :=
  decode 0b10000010 0b00000011 0b11111111 = .ok (.loadImmediate 3 255) ∧
  decode 0b01000111 0b00000010 0b00000001 = .ok (.printReg 2) ∧
  decode 0b10100000 0b00000000 0b00000001 = .ok (.add 0 1) ∧
  decode 0b10100111 0b00000111 0b00000000 = .ok (.compare 7 0) ∧
  decode 0b01000110 0b00000001 0b00000000 = .ok (.pop 1) ∧
  decode 0b01010000 0b00000001 0b00000000 = .ok (.call 1) ∧
  decode 0b00000001 0b00000000 0b00000000 = .ok .halt

/-- R72: an opcode byte that is no value of the opcode map is InvalidInstruction, which a step takes with that byte as its information, and the
operand bytes have no say. With the default map exactly 13 opcode bytes decode and the other 243 are refused. -/
def Obligations.InvalidOpcodesAreRefused : Prop :=
  (∀ (m : OpcodeMap) (ir opa opb : Byte),
    decodeWith m ir opa opb = .error (.invalidInstruction ir) ↔ ∀ k, m.byte k ≠ ir) ∧
  (∀ (m : OpcodeMap) (s : State), s.run = .running → s.CanFetch → (∀ k, m.byte k ≠ s.codeByte 0) →
    stepWith m s = .next (s.raise ⟨.invalidInstruction, zext9 (s.codeByte 0)⟩)) ∧
  (∀ ir opa opb : Byte, decode ir opa opb = .error (.invalidInstruction ir) ↔
    ir ∉ ([0x01, 0x11, 0x45, 0x46, 0x47, 0x50, 0x54, 0x55, 0x56, 0x82, 0xA0, 0xA2, 0xA7] : List Byte)) ∧
  (∀ ir opa opb : Byte, (∃ i, decode ir opa opb = .ok i) ∨ decode ir opa opb = .error (.invalidInstruction ir)) ∧
  ((List.range 256).filter fun n => (findMnemonic defaultOpcodeMap (BitVec.ofNat 8 n)).isNone).length = 243

/-- R67, R74: a byte the format does not use takes no part in decoding, in any opcode map. -/
def Obligations.IgnoredBytesTakeNoPart : Prop :=
  ∀ (m : OpcodeMap) (k : Mnemonic) (opa opb opa' opb' : Byte),
    (formatOf k = .z → decodeWith m (m.byte k) opa opb = decodeWith m (m.byte k) opa' opb') ∧
    (formatOf k = .r → decodeWith m (m.byte k) opa opb = decodeWith m (m.byte k) opa opb') ∧
    decodeWith m (m.byte k) opa opb = .ok (buildInstr k opa opb)

/-- Decode and encode agree for every opcode map and every instruction, with every operand byte at every value: decoding the bytes of an
instruction, whatever follows them, gives the instruction and what follows. -/
def Obligations.DecodeOfEncode : Prop :=
  ∀ (m : OpcodeMap) (i : Instr) (rest : List Byte), decodeBytes m (encode m i ++ rest) = .ok (i, rest)

/-- The other direction: bytes that decode are the encoding of what they decode to, so every encoding has one meaning and no bit is
dropped; and the three fetched bytes begin with that encoding. -/
def Obligations.EncodeOfDecode : Prop :=
  (∀ (m : OpcodeMap) (bytes rest : List Byte) (i : Instr), decodeBytes m bytes = .ok (i, rest) →
    bytes = encode m i ++ rest) ∧
  (∀ (m : OpcodeMap) (ir opa opb : Byte) (i : Instr), decodeWith m ir opa opb = .ok i →
    ∃ rest, [ir, opa, opb] = encode m i ++ rest)

/-- A whole program survives being laid out as bytes and read back, for every opcode map. -/
def Obligations.ProgramDecodeOfEncode : Prop :=
  ∀ (m : OpcodeMap) (program : List Instr), decodeProgram m (encodeProgram m program) = .ok program

/-! ## The instructions, rule by rule: encoding, effect, faults

The encoding clause says the bytes for every opcode map, and which byte the default map of R70 gives the mnemonic; neither rests on the model's
choice of a map for `step` (log entry 1). -/

/-- R85 LOAD_IMMEDIATE. -/
def Obligations.LoadImmediateRule : Prop :=
  ∀ (ra imm : Byte) (s : State),
    (∀ m : OpcodeMap, encode m (.loadImmediate ra imm) = [m.byte .loadImmediate, ra, imm]) ∧ defaultOpcodeMap.byte .loadImmediate = 0x82 ∧
    (NamesRegister ra → ∃ t, exec (.loadImmediate ra imm) s = .next t ∧
      (∀ j : RegIndex, t.reg j = if j.val = ra.toNat then imm else s.reg j) ∧
      t.pc = s.pc + 3 ∧ t.mem = s.mem ∧ t.fl = s.fl ∧ t.run = s.run ∧ t.fault = s.fault ∧ t.out = s.out) ∧
    (8 ≤ ra.toNat → exec (.loadImmediate ra imm) s = .next (s.raise ⟨.outOfRangeRegister, zext9 ra⟩)) ∧
    s.FetchFaultsAboveTop

/-- R86 PRINT_REG, with the text the sink shows for the value: its decimal text and one line break, whatever codes the digits have (log
entry 14). -/
def Obligations.PrintRegRule : Prop :=
  ∀ (ra : Byte) (s : State),
    (∀ m : OpcodeMap, encode m (.printReg ra) = [m.byte .printReg, ra]) ∧ defaultOpcodeMap.byte .printReg = 0x47 ∧
    (∀ ha : NamesRegister ra, ∃ t, exec (.printReg ra) s = .next t ∧
      t.out = s.out ++ [s.reg ⟨ra.toNat, ha⟩] ∧
      (∀ lineBreak, sinkText lineBreak t.out =
        sinkText lineBreak s.out ++ decimalText (s.reg ⟨ra.toNat, ha⟩) ++ [lineBreak]) ∧
      (∀ j : RegIndex, t.reg j = s.reg j) ∧
      t.pc = s.pc + 2 ∧ t.mem = s.mem ∧ t.fl = s.fl ∧ t.run = s.run ∧ t.fault = s.fault) ∧
    (8 ≤ ra.toNat → exec (.printReg ra) s = .next (s.raise ⟨.outOfRangeRegister, zext9 ra⟩)) ∧
    s.FetchFaultsAboveTop

/-- R90 ADD. -/
def Obligations.AddRule : Prop :=
  ∀ (ra rb : Byte) (s : State),
    (∀ m : OpcodeMap, encode m (.add ra rb) = [m.byte .add, ra, rb]) ∧ defaultOpcodeMap.byte .add = 0xA0 ∧
    (∀ (ha : NamesRegister ra) (hb : NamesRegister rb), ∃ t, exec (.add ra rb) s = .next t ∧
      (∀ j : RegIndex, (t.reg j).toNat =
        if j.val = ra.toNat then ((s.reg ⟨ra.toNat, ha⟩).toNat + (s.reg ⟨rb.toNat, hb⟩).toNat) % 256
        else (s.reg j).toNat) ∧
      t.pc = s.pc + 3 ∧ t.mem = s.mem ∧ t.fl = s.fl ∧ t.run = s.run ∧ t.fault = s.fault ∧ t.out = s.out) ∧
    (8 ≤ ra.toNat → exec (.add ra rb) s = .next (s.raise ⟨.outOfRangeRegister, zext9 ra⟩)) ∧
    (NamesRegister ra → 8 ≤ rb.toNat → exec (.add ra rb) s = .next (s.raise ⟨.outOfRangeRegister, zext9 rb⟩)) ∧
    s.FetchFaultsAboveTop

/-- R91 MULTIPLY. -/
def Obligations.MultiplyRule : Prop :=
  ∀ (ra rb : Byte) (s : State),
    (∀ m : OpcodeMap, encode m (.multiply ra rb) = [m.byte .multiply, ra, rb]) ∧ defaultOpcodeMap.byte .multiply = 0xA2 ∧
    (∀ (ha : NamesRegister ra) (hb : NamesRegister rb), ∃ t, exec (.multiply ra rb) s = .next t ∧
      (∀ j : RegIndex, (t.reg j).toNat =
        if j.val = ra.toNat then ((s.reg ⟨ra.toNat, ha⟩).toNat * (s.reg ⟨rb.toNat, hb⟩).toNat) % 256
        else (s.reg j).toNat) ∧
      t.pc = s.pc + 3 ∧ t.mem = s.mem ∧ t.fl = s.fl ∧ t.run = s.run ∧ t.fault = s.fault ∧ t.out = s.out) ∧
    (8 ≤ ra.toNat → exec (.multiply ra rb) s = .next (s.raise ⟨.outOfRangeRegister, zext9 ra⟩)) ∧
    (NamesRegister ra → 8 ≤ rb.toNat → exec (.multiply ra rb) s = .next (s.raise ⟨.outOfRangeRegister, zext9 rb⟩)) ∧
    s.FetchFaultsAboveTop

/-- R92 COMPARE. -/
def Obligations.CompareRule : Prop :=
  ∀ (ra rb : Byte) (s : State),
    (∀ m : OpcodeMap, encode m (.compare ra rb) = [m.byte .compare, ra, rb]) ∧ defaultOpcodeMap.byte .compare = 0xA7 ∧
    (∀ (ha : NamesRegister ra) (hb : NamesRegister rb), ∃ t, exec (.compare ra rb) s = .next t ∧
      (t.fl = .less ↔ (s.reg ⟨ra.toNat, ha⟩).toNat < (s.reg ⟨rb.toNat, hb⟩).toNat) ∧
      (t.fl = .greater ↔ (s.reg ⟨rb.toNat, hb⟩).toNat < (s.reg ⟨ra.toNat, ha⟩).toNat) ∧
      (t.fl = .equal ↔ s.reg ⟨ra.toNat, ha⟩ = s.reg ⟨rb.toNat, hb⟩) ∧
      (∀ j : RegIndex, t.reg j = s.reg j) ∧
      t.pc = s.pc + 3 ∧ t.mem = s.mem ∧ t.run = s.run ∧ t.fault = s.fault ∧ t.out = s.out) ∧
    (8 ≤ ra.toNat → exec (.compare ra rb) s = .next (s.raise ⟨.outOfRangeRegister, zext9 ra⟩)) ∧
    (NamesRegister ra → 8 ≤ rb.toNat → exec (.compare ra rb) s = .next (s.raise ⟨.outOfRangeRegister, zext9 rb⟩)) ∧
    s.FetchFaultsAboveTop

/-- R100 PUSH. The stored value is the register as it is after the decrement, so PUSH R7 stores the decremented SP. -/
def Obligations.PushRule : Prop :=
  ∀ (ra : Byte) (s : State),
    (∀ m : OpcodeMap, encode m (.push ra) = [m.byte .push, ra]) ∧ defaultOpcodeMap.byte .push = 0x45 ∧
    (∀ ha : NamesRegister ra, ∃ t, exec (.push ra) s = .next t ∧
      (∀ j : RegIndex, t.reg j = if j = 7 then s.sp - 1 else s.reg j) ∧
      (∀ a, t.mem.read a = if a = (s.sp - 1).toNat then t.reg ⟨ra.toNat, ha⟩ else s.mem.read a) ∧
      t.pc = s.pc + 2 ∧ t.fl = s.fl ∧ t.run = s.run ∧ t.fault = s.fault ∧ t.out = s.out) ∧
    (8 ≤ ra.toNat → exec (.push ra) s = .next (s.raise ⟨.outOfRangeRegister, zext9 ra⟩)) ∧
    s.FetchFaultsAboveTop

/-- R101 POP. The increment applies to R7 as the destination write left it, so POP R7 leaves the loaded value plus one. -/
def Obligations.PopRule : Prop :=
  ∀ (ra : Byte) (s : State),
    (∀ m : OpcodeMap, encode m (.pop ra) = [m.byte .pop, ra]) ∧ defaultOpcodeMap.byte .pop = 0x46 ∧
    (NamesRegister ra → ∃ t, exec (.pop ra) s = .next t ∧
      (∀ j : RegIndex, t.reg j =
        if j = 7 then (if ra.toNat = 7 then s.mem.read s.sp.toNat + 1 else s.sp + 1)
        else if j.val = ra.toNat then s.mem.read s.sp.toNat else s.reg j) ∧
      t.pc = s.pc + 2 ∧ t.mem = s.mem ∧ t.fl = s.fl ∧ t.run = s.run ∧ t.fault = s.fault ∧ t.out = s.out) ∧
    (8 ≤ ra.toNat → exec (.pop ra) s = .next (s.raise ⟨.outOfRangeRegister, zext9 ra⟩)) ∧
    s.FetchFaultsAboveTop

/-- R105 CALL. Where a step can run it (`p ≤ 253`) the stored byte is `p + 2` itself. The target is read after the decrement. -/
def Obligations.CallRule : Prop :=
  ∀ (ra : Byte) (s : State),
    (∀ m : OpcodeMap, encode m (.call ra) = [m.byte .call, ra]) ∧ defaultOpcodeMap.byte .call = 0x50 ∧
    (∀ ha : NamesRegister ra, s.CanFetch → ∃ t, exec (.call ra) s = .next t ∧
      (∀ j : RegIndex, t.reg j = if j = 7 then s.sp - 1 else s.reg j) ∧
      (∀ a, (t.mem.read a).toNat = if a = (s.sp - 1).toNat then s.pc.toNat + 2 else (s.mem.read a).toNat) ∧
      t.pc = zext9 (t.reg ⟨ra.toNat, ha⟩) ∧ t.fl = s.fl ∧ t.run = s.run ∧ t.fault = s.fault ∧ t.out = s.out) ∧
    (8 ≤ ra.toNat → exec (.call ra) s = .next (s.raise ⟨.outOfRangeRegister, zext9 ra⟩)) ∧
    s.FetchFaultsAboveTop

/-- R106 RETURN. It names no register, so no operand byte can make it fault. -/
def Obligations.ReturnRule : Prop :=
  ∀ (s : State),
    (∀ m : OpcodeMap, encode m .ret = [m.byte .ret]) ∧ defaultOpcodeMap.byte .ret = 0x11 ∧
    (∀ (m : OpcodeMap) (opa opb : Byte), decodeWith m (m.byte .ret) opa opb = .ok .ret) ∧
    (∃ t, exec .ret s = .next t ∧
      t.pc = zext9 (s.mem.read s.sp.toNat) ∧
      (∀ j : RegIndex, t.reg j = if j = 7 then s.sp + 1 else s.reg j) ∧
      t.mem = s.mem ∧ t.fl = s.fl ∧ t.run = s.run ∧ t.fault = s.fault ∧ t.out = s.out) ∧
    s.FetchFaultsAboveTop

/-- R107 JUMP: the corrected jump, with no flag interaction; operand_b is ignored. -/
def Obligations.JumpRule : Prop :=
  ∀ (ra : Byte) (s : State),
    (∀ m : OpcodeMap, encode m (.jump ra) = [m.byte .jump, ra]) ∧ defaultOpcodeMap.byte .jump = 0x54 ∧
    (∀ (m : OpcodeMap) (opb : Byte), decodeWith m (m.byte .jump) ra opb = .ok (.jump ra)) ∧
    (∀ ha : NamesRegister ra, ∃ t, exec (.jump ra) s = .next t ∧
      t.pc = zext9 (s.reg ⟨ra.toNat, ha⟩) ∧
      t.regs = s.regs ∧ t.mem = s.mem ∧ t.fl = s.fl ∧ t.run = s.run ∧ t.fault = s.fault ∧ t.out = s.out) ∧
    (8 ≤ ra.toNat → exec (.jump ra) s = .next (s.raise ⟨.outOfRangeRegister, zext9 ra⟩)) ∧
    s.FetchFaultsAboveTop

/-- R108 JUMP_IF_EQUAL. A bad register index faults whether or not the jump would be taken. -/
def Obligations.JumpIfEqualRule : Prop :=
  ∀ (ra : Byte) (s : State),
    (∀ m : OpcodeMap, encode m (.jumpIfEqual ra) = [m.byte .jumpIfEqual, ra]) ∧ defaultOpcodeMap.byte .jumpIfEqual = 0x55 ∧
    (∀ ha : NamesRegister ra, ∃ t, exec (.jumpIfEqual ra) s = .next t ∧
      (s.fl = .equal → t.pc = zext9 (s.reg ⟨ra.toNat, ha⟩)) ∧ (s.fl ≠ .equal → t.pc = s.pc + 2) ∧
      t.regs = s.regs ∧ t.mem = s.mem ∧ t.fl = s.fl ∧ t.run = s.run ∧ t.fault = s.fault ∧ t.out = s.out) ∧
    (8 ≤ ra.toNat → exec (.jumpIfEqual ra) s = .next (s.raise ⟨.outOfRangeRegister, zext9 ra⟩)) ∧
    s.FetchFaultsAboveTop

/-- R109 JUMP_IF_NOT_EQUAL: taken on Greater and on Less alike. -/
def Obligations.JumpIfNotEqualRule : Prop :=
  ∀ (ra : Byte) (s : State),
    (∀ m : OpcodeMap, encode m (.jumpIfNotEqual ra) = [m.byte .jumpIfNotEqual, ra]) ∧ defaultOpcodeMap.byte .jumpIfNotEqual = 0x56 ∧
    (∀ ha : NamesRegister ra, ∃ t, exec (.jumpIfNotEqual ra) s = .next t ∧
      (s.fl = .equal → t.pc = s.pc + 2) ∧
      (s.fl = .greater ∨ s.fl = .less → t.pc = zext9 (s.reg ⟨ra.toNat, ha⟩)) ∧
      t.regs = s.regs ∧ t.mem = s.mem ∧ t.fl = s.fl ∧ t.run = s.run ∧ t.fault = s.fault ∧ t.out = s.out) ∧
    (8 ≤ ra.toNat → exec (.jumpIfNotEqual ra) s = .next (s.raise ⟨.outOfRangeRegister, zext9 ra⟩)) ∧
    s.FetchFaultsAboveTop

/-- R115 HALT: only `RUN` changes, and no further step is taken. -/
def Obligations.HaltRule : Prop :=
  ∀ (s : State),
    (∀ m : OpcodeMap, encode m .halt = [m.byte .halt]) ∧ defaultOpcodeMap.byte .halt = 0x01 ∧
    (∀ (m : OpcodeMap) (opa opb : Byte), decodeWith m (m.byte .halt) opa opb = .ok .halt) ∧
    exec .halt s = .next { s with run := .halted } ∧
    (∀ m t, exec .halt s = .next t → t.haltedOut = true ∧ ∀ u, stepWith m t ≠ .next u) ∧
    s.FetchFaultsAboveTop

/-! ## Frames: what an instruction leaves unchanged, the entry of a register-index fault among its next states -/

/-- LOAD_IMMEDIATE, ADD and MULTIPLY change at most their destination register, `pc`, and, where the register-index check raises, `RUN` and
`FAULT`. -/
def Obligations.FrameOfRegisterWriters : Prop :=
  ∀ (i : Instr) (ra : Byte) (s t : State),
    ((∃ imm, i = .loadImmediate ra imm) ∨ (∃ rb, i = .add ra rb) ∨ (∃ rb, i = .multiply ra rb)) →
    exec i s = .next t →
      (∀ j : RegIndex, j.val ≠ ra.toNat → t.reg j = s.reg j) ∧ t.fl = s.fl ∧ (∀ a, t.mem.read a = s.mem.read a) ∧
      t.out = s.out ∧ ((t.run = s.run ∧ t.fault = s.fault) ∨ ¬ i.WellFormed)

/-- POP changes at most its destination register, R7, `pc`, and, where the register-index check raises, `RUN` and `FAULT`. -/
def Obligations.FrameOfPop : Prop :=
  ∀ (ra : Byte) (s t : State), exec (.pop ra) s = .next t →
    (∀ j : RegIndex, j.val ≠ ra.toNat → j ≠ 7 → t.reg j = s.reg j) ∧ t.fl = s.fl ∧ (∀ a, t.mem.read a = s.mem.read a) ∧
    t.out = s.out ∧ ((t.run = s.run ∧ t.fault = s.fault) ∨ 8 ≤ ra.toNat)

/-- PUSH and CALL change at most R7, the one byte at the decremented stack pointer, `pc`, and, where the register-index check raises, `RUN`
and `FAULT`. -/
def Obligations.FrameOfStores : Prop :=
  ∀ (i : Instr) (ra : Byte) (s t : State), (i = .push ra ∨ i = .call ra) → exec i s = .next t →
    (∀ j : RegIndex, j ≠ 7 → t.reg j = s.reg j) ∧ t.fl = s.fl ∧
    (∀ a, a ≠ s.decSp.sp.toNat → t.mem.read a = s.mem.read a) ∧
    t.out = s.out ∧ ((t.run = s.run ∧ t.fault = s.fault) ∨ 8 ≤ ra.toNat)

/-- RETURN changes at most R7 and `pc`. -/
def Obligations.FrameOfReturn : Prop :=
  ∀ (s t : State), exec .ret s = .next t →
    (∀ j : RegIndex, j ≠ 7 → t.reg j = s.reg j) ∧ t.fl = s.fl ∧ (∀ a, t.mem.read a = s.mem.read a) ∧
    t.out = s.out ∧ t.run = s.run ∧ t.fault = s.fault

/-- PRINT_REG, COMPARE, JUMP, JUMP_IF_EQUAL, JUMP_IF_NOT_EQUAL and HALT change no register and no byte of memory; only COMPARE changes the
flag, only PRINT_REG the output, and `RUN` and `FAULT` change only by HALT or by a register-index fault. -/
def Obligations.FrameOfTheOthers : Prop :=
  ∀ (i : Instr) (s t : State),
    i.mnemonic ∈ [Mnemonic.printReg, .compare, .jump, .jumpIfEqual, .jumpIfNotEqual, .halt] →
    exec i s = .next t →
      (∀ j : RegIndex, t.reg j = s.reg j) ∧ (∀ a, t.mem.read a = s.mem.read a) ∧
      (i.mnemonic ≠ .compare → t.fl = s.fl) ∧ (i.mnemonic ≠ .printReg → t.out = s.out) ∧
      (i.mnemonic ≠ .halt → i.WellFormed → t.run = s.run) ∧ (i.WellFormed → t.fault = s.fault)

/-! ## The step as a whole -/

/-- R140, R142, R143, R165: a step is defined exactly when `RUN` is Running; its phases, and the one fault it raises, the first in their order.
The operand bytes checked are those the format declares as register indices: operand_a in formats R, RR and RI, operand_b in RR
only. The phases are stated for the values of `pc` that StepKeepsInvariant shows to be all that are reached. -/
def Obligations.StepPhasesInOrder : Prop :=
  ∀ (m : OpcodeMap) (s : State),
    (s.run ≠ .running → ∀ t, stepWith m s ≠ .next t) ∧
    (s.run = .running → s.PcInRange → stepWith m s =
      if s.pc.toNat ≤ 253 then
        match findMnemonic m (s.codeByte 0) with
        | none => .next (s.raise ⟨.invalidInstruction, zext9 (s.codeByte 0)⟩)
        | some k =>
          if formatOf k ≠ .z ∧ 8 ≤ (s.codeByte 1).toNat then
            .next (s.raise ⟨.outOfRangeRegister, zext9 (s.codeByte 1)⟩)
          else if formatOf k = .rr ∧ 8 ≤ (s.codeByte 2).toNat then
            .next (s.raise ⟨.outOfRangeRegister, zext9 (s.codeByte 2)⟩)
          else exec (buildInstr k (s.codeByte 1) (s.codeByte 2)) s
      else .next (s.raise ⟨.outOfRangeMemory, 256⟩))

/-- R166: raising a fault writes `RUN` and `FAULT` and nothing else, and a step that ends in Faulted has done exactly that: the record's pc is
the opcode's address and its cause is one a program can raise. -/
def Obligations.FaultEntryChangesOnlyRunAndFault : Prop :=
  (∀ (s : State) (r : Raised),
    s.raise r = { s with run := .faulted, fault := ⟨r.cause, s.pc, r.info⟩ }) ∧
  (∀ (m : OpcodeMap) (s t : State), stepWith m s = .next t → t.run = .faulted →
    t.mem = s.mem ∧ t.regs = s.regs ∧ t.pc = s.pc ∧ t.fl = s.fl ∧ t.out = s.out ∧
    t.fault.pc = s.pc ∧ t.fault.cause ∈ [FaultCause.invalidInstruction, .outOfRangeMemory, .outOfRangeRegister])

/-- R126: Running steps on; HALT and nothing else leads to Halted, a fault and nothing else to Faulted; in Halted and Faulted no step is
taken, which the model says by stopping under a name of its own (log entry 3). -/
def Obligations.ExecutionLoopTransitions : Prop :=
  ∀ (m : OpcodeMap) (s : State),
    (s.haltedOut = true ↔ s.run = .halted) ∧ (s.faultedOut = true ↔ s.run = .faulted) ∧
    (s.run = .running → ∃ t, stepWith m s = .next t ∧
      (t.run = .halted ↔ s.CanFetch ∧ s.codeByte 0 = m.byte .halt) ∧
      (t.run ≠ .faulted → t.fault = s.fault) ∧
      (t.run = .faulted ↔ (¬ s.CanFetch ∨ ∀ i, decodeWith m (s.codeByte 0) (s.codeByte 1) (s.codeByte 2) = .ok i → ¬ i.WellFormed))) ∧
    (s.run = .halted → stepWith m s = .fault .runHalted) ∧
    (s.run = .faulted → stepWith m s = .fault .runFaulted)

/-- Every step keeps the machine's invariant: canonical memory, `pc` at most 256 (R29), a fault record exactly in Faulted and describing the
fault (R35, R160), in every state and for every opcode map. -/
def Obligations.StepKeepsInvariant : Prop :=
  (∀ (s t : State), s.Inv → step s = .next t → t.Inv) ∧
  (∀ (m : OpcodeMap) (s t : State), s.Inv → stepWith m s = .next t → t.Inv)

/-- The invariant holds after reset, for every `SP_RESET`. -/
def Obligations.ResetHasInvariant : Prop :=
  State.reset.Inv ∧ ∀ sp : Byte, (State.resetWith sp).Inv

/-- The invariant holds after every program load. -/
def Obligations.LoadHasInvariant : Prop :=
  ∀ (sp : Byte) (program : List Byte) (s : State), hostLoad sp program = some s → s.Inv

/-- R27: how each instruction sets `pc`, and that a step that faults leaves it. -/
def Obligations.EachInstructionSetsPc : Prop :=
  ∀ (m : OpcodeMap) (s t : State), stepWith m s = .next t →
    (t.run = .faulted → t.pc = s.pc) ∧
    (t.run ≠ .faulted → ∀ k, s.codeByte 0 = m.byte k →
      (k ∈ [Mnemonic.loadImmediate, .add, .multiply, .compare] → t.pc = s.pc + 3) ∧
      (k ∈ [Mnemonic.printReg, .push, .pop] → t.pc = s.pc + 2) ∧
      (k = .halt → t.pc = s.pc) ∧
      (k = .ret → t.pc = zext9 (s.mem.read s.sp.toNat)) ∧
      (∀ i : RegIndex, i.val = (s.codeByte 1).toNat →
        (k = .call → t.pc = zext9 (if i = 7 then s.sp - 1 else s.reg i)) ∧
        (k = .jump → t.pc = zext9 (s.reg i)) ∧
        (k = .jumpIfEqual → t.pc = if s.fl = .equal then zext9 (s.reg i) else s.pc + 2) ∧
        (k = .jumpIfNotEqual → t.pc = if s.fl ≠ .equal then zext9 (s.reg i) else s.pc + 2)))

/-- R31: COMPARE and nothing else writes the flag; JUMP_IF_EQUAL and JUMP_IF_NOT_EQUAL and nothing else read it. Under no opcode does the flag
reach a register, memory, the output, the run state or the fault record, and under any opcode but those two it does not reach `pc`. A COMPARE that
executes leaves a flag that does not depend on the one before; every other step, a faulting one included, keeps the flag it finds. -/
def Obligations.FlagWrittenByCompareReadByJumps : Prop :=
  (∀ (m : OpcodeMap) (s t : State), stepWith m s = .next t → t.fl ≠ s.fl →
    s.CanFetch ∧ s.codeByte 0 = m.byte .compare) ∧
  (∀ (m : OpcodeMap) (s t : State) (f : Flag), stepWith m s = .next t →
    ∃ u, stepWith m { s with fl := f } = .next u ∧
      u.mem = t.mem ∧ u.regs = t.regs ∧ u.out = t.out ∧ u.run = t.run ∧ u.fault = t.fault ∧
      (s.codeByte 0 ≠ m.byte .jumpIfEqual → s.codeByte 0 ≠ m.byte .jumpIfNotEqual → u.pc = t.pc) ∧
      (s.codeByte 0 = m.byte .compare → t.run ≠ .faulted → u.fl = t.fl) ∧
      (s.codeByte 0 ≠ m.byte .compare ∨ t.run = .faulted → u.fl = f))

/-- R36, R150: the output grows only by PRINT_REG, by exactly the value of its register, and nothing is ever taken out of it. -/
def Obligations.OutputGrowsOnlyByPrint : Prop :=
  ∀ (m : OpcodeMap) (s t : State), stepWith m s = .next t →
    t.out = s.out ∨
      ∃ i : RegIndex, s.CanFetch ∧ s.codeByte 0 = m.byte .printReg ∧ i.val = (s.codeByte 1).toNat ∧
        t.out = s.out ++ [s.reg i]

/-- R36: no instruction reads the output: two states that differ only in what was printed before step alike, and differ only in that
after. -/
def Obligations.OutputIsNeverRead : Prop :=
  ∀ (m : OpcodeMap) (s t : State) (before : List Byte), stepWith m s = .next t →
    stepWith m { s with out := before ++ s.out } = .next { t with out := before ++ t.out }

/-- R23: a step changes a register only as the destination of LOAD_IMMEDIATE, ADD, MULTIPLY or POP, or R7 in PUSH, POP, CALL or RETURN. -/
def Obligations.RegistersChangeOnlyWhereNamed : Prop :=
  ∀ (m : OpcodeMap) (s t : State) (j : RegIndex), stepWith m s = .next t → t.reg j ≠ s.reg j →
    s.CanFetch ∧ ∃ k, s.codeByte 0 = m.byte k ∧
      ((j.val = (s.codeByte 1).toNat ∧ k ∈ [Mnemonic.loadImmediate, .add, .multiply, .pop]) ∨
       (j = 7 ∧ k ∈ [Mnemonic.push, .pop, .call, .ret]))

/-- R60: a step changes a byte of memory only by PUSH or CALL, and only the byte at `(SP - 1) mod 256`. -/
def Obligations.MemoryChangesOnlyByPushAndCall : Prop :=
  ∀ (m : OpcodeMap) (s t : State) (a : Nat), stepWith m s = .next t → t.mem.read a ≠ s.mem.read a →
    s.CanFetch ∧ a = (s.sp - 1).toNat ∧ (s.codeByte 0 = m.byte .push ∨ s.codeByte 0 = m.byte .call)

/-! ## Laws over several instructions -/

/-- R102: PUSH then POP of the same register, R7 included, restores the register and the stack pointer, and no other register
moves. -/
def Obligations.PushThenPopRestores : Prop :=
  ∀ (r : RegIndex) (s : State), ∃ t u,
    exec (.push (BitVec.ofNat 8 r.val)) s = .next t ∧ exec (.pop (BitVec.ofNat 8 r.val)) t = .next u ∧
    ∀ j : RegIndex, u.reg j = s.reg j

/-- R111: a RETURN that runs when SP is back at the CALL's slot, and the slot still holds what the CALL stored, goes to the address after
the CALL and restores SP, whatever ran in between. -/
def Obligations.CallThenReturnComesBack : Prop :=
  ∀ (ra : Byte) (s t u : State), NamesRegister ra → s.CanFetch → exec (.call ra) s = .next t →
    u.sp = s.sp - 1 → u.mem.read (s.sp - 1).toNat = t.mem.read (s.sp - 1).toNat →
    ∃ v, exec .ret u = .next v ∧ v.pc = s.pc + 2 ∧ v.sp = s.sp

/-- R58: what PUSH or CALL stores at the decremented stack pointer is what the very next fetch reads there, and the other fetched bytes are as they
were before the instruction. The stored byte is the register as it is after the decrement for PUSH, and the CALL's address plus 2 for CALL. -/
def Obligations.StoreIsSeenByNextFetch : Prop :=
  ∀ (i : Instr) (ra v : Byte) (ha : NamesRegister ra) (s t : State),
    (i = .push ra ∧ v = t.reg ⟨ra.toNat, ha⟩) ∨ (i = .call ra ∧ s.CanFetch ∧ v.toNat = s.pc.toNat + 2) →
    exec i s = .next t → t.CanFetch →
    ∃ b0 b1 b2, fetch t = .ok (b0, b1, b2) ∧
      b0 = (if t.pc.toNat = (s.sp - 1).toNat then v else s.mem.read t.pc.toNat) ∧
      b1 = (if t.pc.toNat + 1 = (s.sp - 1).toNat then v else s.mem.read (t.pc.toNat + 1)) ∧
      b2 = (if t.pc.toNat + 2 = (s.sp - 1).toNat then v else s.mem.read (t.pc.toNat + 2))

/-- R148: a JUMP to its own address is a hang: after any number of steps the machine is in the same state, still Running. The byte 0x54 is JUMP by the model's choice of the default map (log entry 1). -/
def Obligations.JumpToItselfNeverEnds : Prop :=
  ∀ (s : State) (i : RegIndex) (n : Nat), s.run = .running → s.CanFetch →
    s.codeByte 0 = 0x54 → (s.codeByte 1).toNat = i.val → zext9 (s.reg i) = s.pc →
    Host.Core.run Sys2Proof.core n s = .next s

/-! ## Blocks and primitives -/

/-- The six blocks driven by the control table of R124 step exactly as the instruction rules do, in every state and for every opcode
map. The order of events inside the block view is read from R122, R124 and R125 by inference (log entry 11), and that both stop in Halted and in
Faulted is log entry 3. -/
def Obligations.ControlTableAgreesWithRules : Prop :=
  ∀ (m : OpcodeMap) (s : State), blockStep m s = stepWith m s

/-- R123, R95: the ALU's operations by select value: `y` is the sum or the product modulo 256, eight bits wide, which a register write then stores as it
is; COMPARE sets the flag and uses no `y`; the fourth select raises UnsupportedALUOperation, and no control word asks for it. -/
def Obligations.AluBlockOperations : Prop :=
  (∀ (a b : Byte) (fl : Flag) (s : State) (i : RegIndex),
    (∃ y : Byte, alu 0 a b fl = .ok ⟨some y, fl⟩ ∧ y.toNat = (a.toNat + b.toNat) % 256 ∧ (s.setReg i y.toNat).reg i = y) ∧
    (∃ y : Byte, alu 1 a b fl = .ok ⟨some y, fl⟩ ∧ y.toNat = (a.toNat * b.toNat) % 256 ∧ (s.setReg i y.toNat).reg i = y) ∧
    alu 2 a b fl = .ok ⟨none, if a.toNat < b.toNat then .less else if b.toNat < a.toNat then .greater else .equal⟩ ∧
    alu 3 a b fl = .error ⟨.unsupportedALUOperation, 3⟩) ∧
  ∀ k : Mnemonic, (controlWord k).aluOp ≠ some 3

/-- R46 to R48: MemRead and MemWrite in range and out of range; a write stores its byte, moves nothing else and keeps the canonical
form. -/
def Obligations.MemoryPrimitives : Prop :=
  ∀ (a : PcWord) (v : Byte) (s : State),
    (a.toNat < 256 → memRead a s = .ok (s.mem.read a.toNat) ∧
      ∃ t, memWrite a v s = .ok t ∧ (∀ k, t.mem.read k = if k = a.toNat then v else s.mem.read k) ∧
        (s.mem.wf → t.mem.wf) ∧
        t.regs = s.regs ∧ t.pc = s.pc ∧ t.fl = s.fl ∧ t.run = s.run ∧ t.fault = s.fault ∧ t.out = s.out) ∧
    (256 ≤ a.toNat → memRead a s = .error ⟨.outOfRangeMemory, a⟩ ∧ memWrite a v s = .error ⟨.outOfRangeMemory, a⟩)

/-- R22, R68: a register write reduces modulo 256 and moves nothing else, also for the stack pointer's increment and decrement; an index is the
whole operand byte, and one of 8 or more names no register. -/
def Obligations.RegisterPrimitives : Prop :=
  ∀ (s : State) (i j : RegIndex) (v : Nat) (b : Byte),
    ((s.setReg i v).reg j).toNat = (if j = i then v % 256 else (s.reg j).toNat) ∧
    s.setReg i v = { s with regs := (s.setReg i v).regs } ∧
    s.decSp = s.setReg 7 (s.sp - 1).toNat ∧ s.incSp = s.setReg 7 (s.sp + 1).toNat ∧
    (∀ h : b.toNat < 8, checkIndex b = .ok ⟨b.toNat, h⟩) ∧
    (8 ≤ b.toNat → checkIndex b = .error ⟨.outOfRangeRegister, zext9 b⟩)

/-- R36: the text of a value is its decimal digits, without sign and without leading zeros, as the library's own digits of a number
write them. That a digit is written as its ASCII code is the model's choice (log entry 14). -/
def Obligations.DecimalTextOfAValue : Prop :=
  ∀ v : Byte, decimalText v = (Nat.toDigits 10 v.toNat).map fun c => BitVec.ofNat 8 c.toNat

/-- R174: the trace shows pc, the three bytes there and the registers, and neither the flag, the run state, the fault record nor the
output. For a byte whose address is out of range R174 says only that no defined value is shown; that it is `none` is the model's choice (log
entry 13). -/
def Obligations.TraceShowsPcBytesRegisters : Prop :=
  ∀ (s : State) (f : Flag) (r : RunState) (k : FaultRecord) (o : List Byte),
    State.trace { s with fl := f, run := r, fault := k, out := o } = s.trace ∧
    s.trace.pc = s.pc ∧ s.trace.regs = s.regs ∧
    s.trace.bytes = [0, 1, 2].map fun n =>
      if s.pc.toNat + n < 256 then some (s.mem.read (s.pc.toNat + n)) else none
end

