-- ==== Sys2Proof/Laws/Decode.lean ====
section
/-!
SUPPORT. The dispatch table finds exactly the mnemonics of the opcode map (R70, R142), and taking an instruction's mnemonic and operands
apart and putting them together again gives it back.
-/

namespace Sys2Proof

theorem Mnemonic.mem_all (k : Mnemonic) : k ∈ Mnemonic.all := by cases k <;> decide

/-- The opcode of a mnemonic is found as that mnemonic. -/
@[simp] theorem findMnemonic_byte (m : OpcodeMap) (k : Mnemonic) : findMnemonic m (m.byte k) = some k := by
  unfold findMnemonic
  cases hf : Mnemonic.all.find? fun j => m.byte j == m.byte k with
  | none => exact absurd (List.find?_eq_none.mp hf k k.mem_all) (by simp)
  | some j => rw [m.injective j k (by simpa using List.find?_some hf)]

/-- What the dispatch table can answer: a byte is found as `k` exactly when it is the opcode of `k`. -/
theorem findMnemonic_eq_some {m : OpcodeMap} {b : Byte} {k : Mnemonic} :
    findMnemonic m b = some k ↔ m.byte k = b := by
  constructor
  · intro h
    simpa using List.find?_some h
  · rintro rfl
    exact findMnemonic_byte m k

theorem findMnemonic_eq_none {m : OpcodeMap} {b : Byte} :
    findMnemonic m b = none ↔ ∀ k, m.byte k ≠ b := by
  constructor
  · rintro h k rfl
    simp at h
  · intro h
    cases hf : findMnemonic m b with
    | none => rfl
    | some k => exact absurd (findMnemonic_eq_some.mp hf) (h k)

@[simp] theorem buildInstr_mnemonic (k : Mnemonic) (opa opb : Byte) : (buildInstr k opa opb).mnemonic = k := by
  cases k <;> rfl

theorem decodeWith_of_find {m : OpcodeMap} {ir : Byte} {k : Mnemonic} (opa opb : Byte)
    (h : findMnemonic m ir = some k) : decodeWith m ir opa opb = .ok (buildInstr k opa opb) := by
  unfold decodeWith
  rw [h]

theorem decodeWith_of_none {m : OpcodeMap} {ir : Byte} (opa opb : Byte) (h : findMnemonic m ir = none) :
    decodeWith m ir opa opb = .error (.invalidInstruction ir) := by
  unfold decodeWith
  rw [h]

theorem decodeBytes_of_take {m : OpcodeMap} {ir : Byte} {k : Mnemonic} {bytes : List Byte} {r : Instr × List Byte}
    (h : findMnemonic m ir = some k) (ht : takeOperands k bytes = some r) : decodeBytes m (ir :: bytes) = .ok r := by
  simp only [decodeBytes, h, ht]

theorem decodeBytes_of_take_none {m : OpcodeMap} {ir : Byte} {k : Mnemonic} {bytes : List Byte}
    (h : findMnemonic m ir = some k) (ht : takeOperands k bytes = none) :
    decodeBytes m (ir :: bytes) = .error .truncated := by
  simp only [decodeBytes, h, ht]

theorem decodeBytes_of_none {m : OpcodeMap} {ir : Byte} (bytes : List Byte) (h : findMnemonic m ir = none) :
    decodeBytes m (ir :: bytes) = .error (.invalidInstruction ir) := by
  simp only [decodeBytes, h]

/-- What the decoder can answer. -/
theorem decodeWith_ok {m : OpcodeMap} {ir opa opb : Byte} {i : Instr} (h : decodeWith m ir opa opb = .ok i) :
    m.byte i.mnemonic = ir ∧ i = buildInstr i.mnemonic opa opb := by
  cases hf : findMnemonic m ir with
  | none =>
    rw [decodeWith_of_none opa opb hf] at h
    cases h
  | some k =>
    rw [decodeWith_of_find opa opb hf] at h
    obtain rfl := Except.ok.inj h
    rw [buildInstr_mnemonic]
    exact ⟨findMnemonic_eq_some.mp hf, rfl⟩

end Sys2Proof
end

