-- ==== Sys2Proof/Laws/Memory.lean ====
section
/-!
SUPPORT. The laws of memory: a read gives the last value written at its address and nothing else moves (R46, R47), every write
keeps the canonical form, and two canonical memories that read alike are equal.
-/

namespace Sys2Proof.Machine

@[simp] theorem Memory.read_nil (k : Nat) : Memory.read [] k = Config.memFill := rfl

theorem Memory.read_cons (c : Host.Cell) (mem : Memory) (k : Nat) :
    Memory.read (c :: mem) k = if c.1 = k then c.2 else Memory.read mem k := rfl

theorem Memory.read_of_absent (mem : Memory) (k : Nat) (h : ∀ c ∈ mem, c.1 ≠ k) :
    mem.read k = Config.memFill := by
  induction mem with
  | nil => rfl
  | cons c mem ih =>
    rw [Memory.read_cons, if_neg (h c (by simp))]
    exact ih fun d hd => h d (by simp [hd])

theorem Memory.read_filter_same (mem : Memory) (a : Nat) :
    Memory.read (mem.filter fun c => c.1 != a) a = Config.memFill :=
  Memory.read_of_absent _ _ fun c hc => by simpa using (List.mem_filter.mp hc).2

theorem Memory.read_filter_other (mem : Memory) {a k : Nat} (h : k ≠ a) :
    Memory.read (mem.filter fun c => c.1 != a) k = mem.read k := by
  induction mem with
  | nil => rfl
  | cons c mem ih =>
    by_cases hc : c.1 = a
    · rw [List.filter_cons_of_neg (by simp [hc]), ih, Memory.read_cons,
        if_neg fun e => h (e.symm.trans hc)]
    · rw [List.filter_cons_of_pos (by simp [hc]), Memory.read_cons, Memory.read_cons, ih]

theorem Memory.read_insertCell_other (c : Host.Cell) (mem : Memory) {k : Nat} (h : k ≠ c.1) :
    Memory.read (mem.insertCell c) k = mem.read k := by
  induction mem with
  | nil => simp [Memory.insertCell, Memory.read_cons, h.symm]
  | cons d mem ih =>
    unfold Memory.insertCell
    split
    · rw [Memory.read_cons, if_neg h.symm]
    · rw [Memory.read_cons, ih, Memory.read_cons]

theorem Memory.read_insertCell_same (c : Host.Cell) (mem : Memory) (h : ∀ d ∈ mem, d.1 ≠ c.1) :
    Memory.read (mem.insertCell c) c.1 = c.2 := by
  induction mem with
  | nil => simp [Memory.insertCell, Memory.read_cons]
  | cons d mem ih =>
    unfold Memory.insertCell
    split
    · rw [Memory.read_cons, if_pos rfl]
    · rw [Memory.read_cons, if_neg (h d (by simp))]
      exact ih fun e he => h e (by simp [he])

/-- Reading the address just written gives the value written (R47). -/
@[simp] theorem Memory.read_write_same (mem : Memory) (a : Nat) (v : Byte) :
    (mem.write a v).read a = v := by
  unfold Memory.write
  split
  next hv => rw [Memory.read_filter_same, hv]
  next =>
    exact Memory.read_insertCell_same (a, v) _ fun d hd => by
      simpa using (List.mem_filter.mp hd).2

/-- A write leaves every other address alone (R47). -/
theorem Memory.read_write_other (mem : Memory) {a k : Nat} (v : Byte) (h : k ≠ a) :
    (mem.write a v).read k = mem.read k := by
  unfold Memory.write
  split
  · exact Memory.read_filter_other mem h
  · rw [Memory.read_insertCell_other (a, v) _ h, Memory.read_filter_other mem h]

/-- What every address reads after a write (R46, R47). -/
theorem Memory.read_write (mem : Memory) (a k : Nat) (v : Byte) :
    (mem.write a v).read k = if k = a then v else mem.read k := by
  split
  next h => rw [h, Memory.read_write_same]
  next h => exact Memory.read_write_other mem v h

theorem Memory.mem_insertCell (c d : Host.Cell) (mem : Memory) :
    d ∈ mem.insertCell c ↔ d = c ∨ d ∈ mem := by
  induction mem with
  | nil => simp [Memory.insertCell]
  | cons e mem ih =>
    unfold Memory.insertCell
    split
    · simp
    · simp only [List.mem_cons, ih]
      tauto

theorem Memory.insertCell_pairwise (c : Host.Cell) (mem : Memory) (h : (mem.map Prod.fst).Pairwise (· < ·))
    (hc : ∀ d ∈ mem, d.1 ≠ c.1) : ((mem.insertCell c).map Prod.fst).Pairwise (· < ·) := by
  induction mem with
  | nil => simp [Memory.insertCell]
  | cons d mem ih =>
    rw [List.map_cons, List.pairwise_cons] at h
    unfold Memory.insertCell
    split
    next hlt =>
      rw [List.map_cons, List.pairwise_cons]
      refine ⟨?_, by rw [List.map_cons, List.pairwise_cons]; exact h⟩
      intro a ha
      rw [List.map_cons, List.mem_cons] at ha
      rcases ha with rfl | ha
      · exact hlt
      · exact lt_trans hlt (h.1 a ha)
    next hnot =>
      rw [List.map_cons, List.pairwise_cons]
      refine ⟨?_, ih h.2 fun e he => hc e (by simp [he])⟩
      intro a ha
      obtain ⟨e, he, rfl⟩ := List.mem_map.mp ha
      rcases (Memory.mem_insertCell c e mem).mp he with rfl | he
      · exact lt_of_le_of_ne (Nat.le_of_not_lt hnot) (hc d (by simp))
      · exact h.1 _ (List.mem_map_of_mem he)

/-- Memory with nothing listed is canonical. -/
theorem Memory.wf_nil : Memory.wf [] := ⟨List.Pairwise.nil, by simp⟩

/-- A write below 256 keeps the canonical form. -/
theorem Memory.wf_write (mem : Memory) (a : Nat) (v : Byte) (h : mem.wf) (ha : a < Config.memSize) :
    (mem.write a v).wf := by
  have hsub : ((mem.filter fun c => c.1 != a).map Prod.fst).Pairwise (· < ·) :=
    h.1.sublist (List.filter_sublist.map _)
  have hcells : ∀ c ∈ mem.filter fun c => c.1 != a, c.1 < Config.memSize ∧ c.2 ≠ Config.memFill :=
    fun c hc => h.2 c (List.mem_filter.mp hc).1
  unfold Memory.write
  split
  · exact ⟨hsub, hcells⟩
  next hv =>
    refine ⟨Memory.insertCell_pairwise _ _ hsub fun d hd => by simpa using (List.mem_filter.mp hd).2, ?_⟩
    intro c hc
    rcases (Memory.mem_insertCell _ c _).mp hc with rfl | hc
    · exact ⟨ha, hv⟩
    · exact hcells c hc

theorem Memory.read_head_lt (mem : Memory) (c : Host.Cell) (k : Nat) (h : ((c :: mem).map Prod.fst).Pairwise (· < ·))
    (hk : k ≤ c.1) : Memory.read mem k = Config.memFill :=
  Memory.read_of_absent _ _ fun d hd e => by
    rw [List.map_cons, List.pairwise_cons] at h
    have := h.1 d.1 (List.mem_map_of_mem hd)
    omega

/-- Canonical memories that read alike at every address are the same data. -/
theorem Memory.ext_of_wf (m₁ m₂ : Memory) (h₁ : m₁.wf) (h₂ : m₂.wf) (h : ∀ k, m₁.read k = m₂.read k) :
    m₁ = m₂ := by
  induction m₁ generalizing m₂ with
  | nil =>
    cases m₂ with
    | nil => rfl
    | cons d m₂ =>
      have := h d.1
      rw [Memory.read_nil, Memory.read_cons, if_pos rfl] at this
      exact absurd this.symm (h₂.2 d (by simp)).2
  | cons c m₁ ih =>
    cases m₂ with
    | nil =>
      have := h c.1
      rw [Memory.read_nil, Memory.read_cons, if_pos rfl] at this
      exact absurd this (h₁.2 c (by simp)).2
    | cons d m₂ =>
      have hcd : c.1 = d.1 := by
        rcases lt_trichotomy c.1 d.1 with hlt | heq | hgt
        · have := h c.1
          rw [Memory.read_cons, if_pos rfl, Memory.read_cons, if_neg (by omega),
            Memory.read_head_lt m₂ d c.1 h₂.1 hlt.le] at this
          exact absurd this (h₁.2 c (by simp)).2
        · exact heq
        · have := h d.1
          rw [Memory.read_cons, if_neg (by omega), Memory.read_cons, if_pos rfl,
            Memory.read_head_lt m₁ c d.1 h₁.1 hgt.le] at this
          exact absurd this.symm (h₂.2 d (by simp)).2
      have hv : c.2 = d.2 := by
        have := h c.1
        rwa [Memory.read_cons, if_pos rfl, Memory.read_cons, if_pos hcd.symm] at this
      have htail : m₁ = m₂ := by
        refine ih m₂ ⟨(List.pairwise_cons.mp h₁.1).2, fun e he => h₁.2 e (by simp [he])⟩
          ⟨(List.pairwise_cons.mp h₂.1).2, fun e he => h₂.2 e (by simp [he])⟩ fun k => ?_
        by_cases hk : k ≤ c.1
        · rw [Memory.read_head_lt m₁ c k h₁.1 hk, Memory.read_head_lt m₂ d k h₂.1 (hcd ▸ hk)]
        · have := h k
          rwa [Memory.read_cons, if_neg (by omega), Memory.read_cons, if_neg (by omega)] at this
      rw [htail, Prod.ext hcd hv]

end Sys2Proof.Machine
end

