-- ==== Sys2Proof/Laws/State.lean ====
section
/-!
SUPPORT. Each field of State after each named update: what the update writes, and that it leaves every other field alone. All
are true by unfolding, and tagged so that no later proof unfolds a record update.
-/

namespace Sys2Proof.Machine

variable (s : State)

@[simp] theorem State.setReg_mem (i : RegIndex) (v : Nat) : (s.setReg i v).mem = s.mem := rfl
@[simp] theorem State.setReg_regs (i : RegIndex) (v : Nat) : (s.setReg i v).regs = s.regs.set i (BitVec.ofNat 8 v) := rfl
@[simp] theorem State.setReg_pc (i : RegIndex) (v : Nat) : (s.setReg i v).pc = s.pc := rfl
@[simp] theorem State.setReg_fl (i : RegIndex) (v : Nat) : (s.setReg i v).fl = s.fl := rfl
@[simp] theorem State.setReg_run (i : RegIndex) (v : Nat) : (s.setReg i v).run = s.run := rfl
@[simp] theorem State.setReg_fault (i : RegIndex) (v : Nat) : (s.setReg i v).fault = s.fault := rfl
@[simp] theorem State.setReg_out (i : RegIndex) (v : Nat) : (s.setReg i v).out = s.out := rfl

@[simp] theorem State.decSp_mem : (s.decSp).mem = s.mem := rfl
@[simp] theorem State.decSp_regs : (s.decSp).regs = s.regs.set spIndex (BitVec.ofNat 8 (s.sp.toNat + 255)) := rfl
@[simp] theorem State.decSp_pc : (s.decSp).pc = s.pc := rfl
@[simp] theorem State.decSp_fl : (s.decSp).fl = s.fl := rfl
@[simp] theorem State.decSp_run : (s.decSp).run = s.run := rfl
@[simp] theorem State.decSp_fault : (s.decSp).fault = s.fault := rfl
@[simp] theorem State.decSp_out : (s.decSp).out = s.out := rfl

@[simp] theorem State.incSp_mem : (s.incSp).mem = s.mem := rfl
@[simp] theorem State.incSp_regs : (s.incSp).regs = s.regs.set spIndex (BitVec.ofNat 8 (s.sp.toNat + 1)) := rfl
@[simp] theorem State.incSp_pc : (s.incSp).pc = s.pc := rfl
@[simp] theorem State.incSp_fl : (s.incSp).fl = s.fl := rfl
@[simp] theorem State.incSp_run : (s.incSp).run = s.run := rfl
@[simp] theorem State.incSp_fault : (s.incSp).fault = s.fault := rfl
@[simp] theorem State.incSp_out : (s.incSp).out = s.out := rfl

@[simp] theorem State.setPc_mem (t : PcWord) : (s.setPc t).mem = s.mem := rfl
@[simp] theorem State.setPc_regs (t : PcWord) : (s.setPc t).regs = s.regs := rfl
@[simp] theorem State.setPc_pc (t : PcWord) : (s.setPc t).pc = t := rfl
@[simp] theorem State.setPc_fl (t : PcWord) : (s.setPc t).fl = s.fl := rfl
@[simp] theorem State.setPc_run (t : PcWord) : (s.setPc t).run = s.run := rfl
@[simp] theorem State.setPc_fault (t : PcWord) : (s.setPc t).fault = s.fault := rfl
@[simp] theorem State.setPc_out (t : PcWord) : (s.setPc t).out = s.out := rfl

@[simp] theorem State.advance_mem (n : Nat) : (s.advance n).mem = s.mem := rfl
@[simp] theorem State.advance_regs (n : Nat) : (s.advance n).regs = s.regs := rfl
@[simp] theorem State.advance_pc (n : Nat) : (s.advance n).pc = s.pc + BitVec.ofNat 9 n := rfl
@[simp] theorem State.advance_fl (n : Nat) : (s.advance n).fl = s.fl := rfl
@[simp] theorem State.advance_run (n : Nat) : (s.advance n).run = s.run := rfl
@[simp] theorem State.advance_fault (n : Nat) : (s.advance n).fault = s.fault := rfl
@[simp] theorem State.advance_out (n : Nat) : (s.advance n).out = s.out := rfl

@[simp] theorem State.setFlag_mem (f : Flag) : (s.setFlag f).mem = s.mem := rfl
@[simp] theorem State.setFlag_regs (f : Flag) : (s.setFlag f).regs = s.regs := rfl
@[simp] theorem State.setFlag_pc (f : Flag) : (s.setFlag f).pc = s.pc := rfl
@[simp] theorem State.setFlag_fl (f : Flag) : (s.setFlag f).fl = f := rfl
@[simp] theorem State.setFlag_run (f : Flag) : (s.setFlag f).run = s.run := rfl
@[simp] theorem State.setFlag_fault (f : Flag) : (s.setFlag f).fault = s.fault := rfl
@[simp] theorem State.setFlag_out (f : Flag) : (s.setFlag f).out = s.out := rfl

@[simp] theorem State.emit_mem (v : Byte) : (s.emit v).mem = s.mem := rfl
@[simp] theorem State.emit_regs (v : Byte) : (s.emit v).regs = s.regs := rfl
@[simp] theorem State.emit_pc (v : Byte) : (s.emit v).pc = s.pc := rfl
@[simp] theorem State.emit_fl (v : Byte) : (s.emit v).fl = s.fl := rfl
@[simp] theorem State.emit_run (v : Byte) : (s.emit v).run = s.run := rfl
@[simp] theorem State.emit_fault (v : Byte) : (s.emit v).fault = s.fault := rfl
@[simp] theorem State.emit_out (v : Byte) : (s.emit v).out = s.out ++ [v] := rfl

@[simp] theorem State.raise_mem (r : Raised) : (s.raise r).mem = s.mem := rfl
@[simp] theorem State.raise_regs (r : Raised) : (s.raise r).regs = s.regs := rfl
@[simp] theorem State.raise_pc (r : Raised) : (s.raise r).pc = s.pc := rfl
@[simp] theorem State.raise_fl (r : Raised) : (s.raise r).fl = s.fl := rfl
@[simp] theorem State.raise_run (r : Raised) : (s.raise r).run = .faulted := rfl
@[simp] theorem State.raise_fault (r : Raised) : (s.raise r).fault = ⟨r.cause, s.pc, r.info⟩ := rfl
@[simp] theorem State.raise_out (r : Raised) : (s.raise r).out = s.out := rfl

/-- Two states with equal fields are equal. -/
theorem State.ext_fields {s t : State} (hm : s.mem = t.mem) (hr : s.regs = t.regs) (hp : s.pc = t.pc) (hf : s.fl = t.fl)
    (hu : s.run = t.run) (hk : s.fault = t.fault) (ho : s.out = t.out) : s = t := by
  cases s
  cases t
  simp_all

end Sys2Proof.Machine
end

