-- ==== Sys2Proof/Laws/Ops.lean ====
section
/-!
SUPPORT. What each shared operation can do, once: register reads and writes, the two memory primitives, and going on or taking a
fault.
-/

namespace Sys2Proof.Machine

@[simp] theorem zext9_toNat (b : Byte) : (zext9 b).toNat = b.toNat := by
  have := b.isLt
  simp only [zext9, BitVec.toNat_setWidth]
  omega

theorem zext9_lt (b : Byte) : (zext9 b).toNat < Config.memSize := by
  rw [zext9_toNat]
  exact b.isLt

theorem zext9_injective {a b : Byte} (h : zext9 a = zext9 b) : a = b := by
  have := congrArg BitVec.toNat h
  exact BitVec.eq_of_toNat_eq (by simpa using this)

@[simp] theorem ofNat_toNat_byte (b : Byte) : BitVec.ofNat 8 b.toNat = b := by simp

/-- Plus 255 modulo 256 is minus one (R9, R93). -/
theorem ofNat_toNat_add_255 (b : Byte) : BitVec.ofNat 8 (b.toNat + 255) = b - 1 := by
  apply BitVec.eq_of_toNat_eq
  simp only [BitVec.toNat_ofNat, BitVec.toNat_sub]
  simp
  omega

/-- Plus one modulo 256 (R93). -/
theorem ofNat_toNat_add_1 (b : Byte) : BitVec.ofNat 8 (b.toNat + 1) = b + 1 := by
  apply BitVec.eq_of_toNat_eq
  simp [BitVec.toNat_ofNat, BitVec.toNat_add]

/-- A register read after a register write (R22). -/
theorem State.reg_setReg (s : State) (i j : RegIndex) (v : Nat) :
    (s.setReg i v).reg j = if j = i then BitVec.ofNat 8 v else s.reg j := by
  unfold State.reg State.setReg
  simp only [Fin.getElem_fin, Vector.getElem_set]
  by_cases h : i = j
  · simp [h]
  · have : ¬ (i : Nat) = j := fun e => h (Fin.ext e)
    simp [this, Ne.symm h]

@[simp] theorem State.reg_setReg_same (s : State) (i : RegIndex) (v : Nat) :
    (s.setReg i v).reg i = BitVec.ofNat 8 v := by rw [State.reg_setReg, if_pos rfl]

theorem State.reg_setReg_other (s : State) {i j : RegIndex} (v : Nat) (h : j ≠ i) :
    (s.setReg i v).reg j = s.reg j := by rw [State.reg_setReg, if_neg h]

theorem State.reg_decSp (s : State) (j : RegIndex) :
    s.decSp.reg j = if j = spIndex then BitVec.ofNat 8 (s.sp.toNat + 255) else s.reg j :=
  State.reg_setReg s spIndex j _

theorem State.reg_incSp (s : State) (j : RegIndex) :
    s.incSp.reg j = if j = spIndex then BitVec.ofNat 8 (s.sp.toNat + 1) else s.reg j :=
  State.reg_setReg s spIndex j _

@[simp] theorem State.sp_decSp (s : State) : s.decSp.sp = BitVec.ofNat 8 (s.sp.toNat + 255) := State.reg_setReg_same s spIndex _

@[simp] theorem State.sp_incSp (s : State) : s.incSp.sp = BitVec.ofNat 8 (s.sp.toNat + 1) := State.reg_setReg_same s spIndex _

@[simp] theorem State.reg_setPc (s : State) (t : PcWord) (j : RegIndex) : (s.setPc t).reg j = s.reg j := rfl
@[simp] theorem State.reg_advance (s : State) (n : Nat) (j : RegIndex) : (s.advance n).reg j = s.reg j := rfl
@[simp] theorem State.reg_setFlag (s : State) (f : Flag) (j : RegIndex) : (s.setFlag f).reg j = s.reg j := rfl
@[simp] theorem State.reg_emit (s : State) (v : Byte) (j : RegIndex) : (s.emit v).reg j = s.reg j := rfl
@[simp] theorem State.reg_raise (s : State) (r : Raised) (j : RegIndex) : (s.raise r).reg j = s.reg j := rfl
@[simp] theorem State.sp_setPc (s : State) (t : PcWord) : (s.setPc t).sp = s.sp := rfl
@[simp] theorem State.sp_advance (s : State) (n : Nat) : (s.advance n).sp = s.sp := rfl

/-- `MemRead` in range gives the byte (R46). -/
theorem memRead_of_lt {a : PcWord} (s : State) (h : a.toNat < Config.memSize) : memRead a s = .ok (s.mem.read a.toNat) :=
  if_pos h

/-- `MemRead` out of range raises OutOfRangeAccess(Memory, a) (R46, R48). -/
theorem memRead_of_not_lt {a : PcWord} (s : State) (h : ¬ a.toNat < Config.memSize) :
    memRead a s = .error ⟨.outOfRangeMemory, a⟩ := if_neg h

/-- A read at an 8-bit address never raises (R46). -/
theorem memRead_zext9 (b : Byte) (s : State) : memRead (zext9 b) s = .ok (s.mem.read b.toNat) := by
  rw [memRead_of_lt s (zext9_lt b), zext9_toNat]

theorem memWrite_of_lt {a : PcWord} (v : Byte) (s : State) (h : a.toNat < Config.memSize) :
    memWrite a v s = .ok { s with mem := s.mem.write a.toNat v } := if_pos h

theorem memWrite_of_not_lt {a : PcWord} (v : Byte) (s : State) (h : ¬ a.toNat < Config.memSize) :
    memWrite a v s = .error ⟨.outOfRangeMemory, a⟩ := if_neg h

/-- A write at an 8-bit address never raises (R47). -/
theorem memWrite_zext9 (b v : Byte) (s : State) :
    memWrite (zext9 b) v s = .ok { s with mem := s.mem.write b.toNat v } := by
  rw [memWrite_of_lt v s (zext9_lt b), zext9_toNat]

/-- What a memory write can do (R47): the byte is stored and nothing else moves. -/
theorem memWrite_ok {a : PcWord} {v : Byte} {s t : State} (h : memWrite a v s = .ok t) :
    a.toNat < Config.memSize ∧ t = { s with mem := s.mem.write a.toNat v } := by
  by_cases ha : a.toNat < Config.memSize
  · rw [memWrite_of_lt v s ha] at h
    exact ⟨ha, (Except.ok.inj h).symm⟩
  · rw [memWrite_of_not_lt v s ha] at h
    cases h

@[simp] theorem orRaise_ok {α : Type} (s : State) (x : α) (k : α → Result) : orRaise s (.ok x) k = k x := rfl

@[simp] theorem orRaise_error {α : Type} (s : State) (e : Raised) (k : α → Result) :
    orRaise s (.error e) k = .next (s.raise e) := rfl

/-- What `orRaise` can do: the fault is taken in the state of the step's start, or the continuation's answer is the answer. -/
theorem orRaise_next {α : Type} {s t : State} {r : Except Raised α} {k : α → Result} (h : orRaise s r k = .next t) :
    (∃ e, r = .error e ∧ t = s.raise e) ∨ ∃ x, r = .ok x ∧ k x = .next t := by
  cases r with
  | error e => exact .inl ⟨e, rfl, (Host.Outcome.next.inj h).symm⟩
  | ok x => exact .inr ⟨x, rfl, h⟩

end Sys2Proof.Machine
end

