-- ==== Sys2Proof/Laws/Operands.lean ====
section
/-!
SUPPORT. The register-index check says once what it can do (R143): it gives the register the byte names, or raises
OutOfRangeAccess(Register).
-/

namespace Sys2Proof.Machine

theorem checkIndex_of_names {b : Byte} (h : NamesRegister b) : checkIndex b = .ok ⟨b.toNat, h⟩ := dif_pos h

theorem checkIndex_of_not_names {b : Byte} (h : ¬ NamesRegister b) :
    checkIndex b = .error ⟨.outOfRangeRegister, zext9 b⟩ := dif_neg h

/-- The register a byte names, if the check gives one. -/
theorem checkIndex_ok {b : Byte} {i : RegIndex} (h : checkIndex b = .ok i) : i.val = b.toNat := by
  by_cases hb : NamesRegister b
  · rw [checkIndex_of_names hb] at h
    rw [← Except.ok.inj h]
  · rw [checkIndex_of_not_names hb] at h
    cases h

theorem checkIndex_error {b : Byte} {e : Raised} (h : checkIndex b = .error e) :
    8 ≤ b.toNat ∧ e = ⟨.outOfRangeRegister, zext9 b⟩ := by
  by_cases hb : NamesRegister b
  · rw [checkIndex_of_names hb] at h
    cases h
  · rw [checkIndex_of_not_names hb] at h
    exact ⟨Nat.le_of_not_lt hb, (Except.error.inj h).symm⟩

/-- An index written as a byte is checked to itself. -/
theorem checkIndex_ofNat (i : RegIndex) : checkIndex (BitVec.ofNat 8 i.val) = .ok i := by
  have hi := i.isLt
  have : NamesRegister (BitVec.ofNat 8 i.val) := by
    simp only [NamesRegister, BitVec.toNat_ofNat]
    omega
  rw [checkIndex_of_names this]
  congr 1
  apply Fin.ext
  simp only [BitVec.toNat_ofNat]
  omega

theorem withReg_of_names {ra : Byte} (h : NamesRegister ra) (s : State) (k : RegIndex → Result) :
    withReg ra s k = k ⟨ra.toNat, h⟩ := by
  unfold withReg
  rw [checkIndex_of_names h, orRaise_ok]

theorem withReg_of_not_names {ra : Byte} (h : ¬ NamesRegister ra) (s : State) (k : RegIndex → Result) :
    withReg ra s k = .next (s.raise ⟨.outOfRangeRegister, zext9 ra⟩) := by
  unfold withReg
  rw [checkIndex_of_not_names h, orRaise_error]

theorem withRegs_of_names {ra rb : Byte} (ha : NamesRegister ra) (hb : NamesRegister rb) (s : State)
    (k : RegIndex → RegIndex → Result) : withRegs ra rb s k = k ⟨ra.toNat, ha⟩ ⟨rb.toNat, hb⟩ := by
  unfold withRegs
  rw [withReg_of_names ha, withReg_of_names hb]

/-- What an instruction with one register operand can do. -/
theorem withReg_next {ra : Byte} {s t : State} {k : RegIndex → Result} (h : withReg ra s k = .next t) :
    (8 ≤ ra.toNat ∧ t = s.raise ⟨.outOfRangeRegister, zext9 ra⟩) ∨
      ∃ i : RegIndex, i.val = ra.toNat ∧ k i = .next t := by
  rcases orRaise_next h with ⟨e, he, rfl⟩ | ⟨i, hi, hk⟩
  · obtain ⟨hb, rfl⟩ := checkIndex_error he
    exact .inl ⟨hb, rfl⟩
  · exact .inr ⟨i, checkIndex_ok hi, hk⟩

/-- What an instruction with two register operands can do: operand_a is reported before operand_b (R165). -/
theorem withRegs_next {ra rb : Byte} {s t : State} {k : RegIndex → RegIndex → Result}
    (h : withRegs ra rb s k = .next t) :
    (8 ≤ ra.toNat ∧ t = s.raise ⟨.outOfRangeRegister, zext9 ra⟩) ∨
      (ra.toNat < 8 ∧ 8 ≤ rb.toNat ∧ t = s.raise ⟨.outOfRangeRegister, zext9 rb⟩) ∨
      ∃ i j : RegIndex, i.val = ra.toNat ∧ j.val = rb.toNat ∧ k i j = .next t := by
  rcases withReg_next h with h | ⟨i, hi, h⟩
  · exact .inl h
  · rcases withReg_next h with ⟨hb, ht⟩ | ⟨j, hj, h⟩
    · exact .inr (.inl ⟨hi ▸ i.isLt, hb, ht⟩)
    · exact .inr (.inr ⟨i, j, hi, hj, h⟩)

end Sys2Proof.Machine
end

