-- ==== Sys2Proof/Laws/Exec.lean ====
section
/-!
SUPPORT. What `exec` can do, once per instruction: with register operands that name registers it answers one next state, written here
in the model's own operations; with one that does not it takes the register-index fault (R143, R144).
-/

namespace Sys2Proof.Machine

/-- The register a byte names. -/
abbrev namedReg (b : Byte) (h : NamesRegister b) : RegIndex := ⟨b.toNat, h⟩

theorem exec_loadImmediate {ra : Byte} (imm : Byte) (h : NamesRegister ra) (s : State) :
    exec (.loadImmediate ra imm) s = .next ((s.setReg (namedReg ra h) imm.toNat).advance 3) :=
  withReg_of_names h s _

theorem exec_printReg {ra : Byte} (h : NamesRegister ra) (s : State) :
    exec (.printReg ra) s = .next ((s.emit (s.reg (namedReg ra h))).advance 2) :=
  withReg_of_names h s _

theorem exec_halt (s : State) : exec .halt s = .next { s with run := .halted } := rfl

theorem exec_add {ra rb : Byte} (ha : NamesRegister ra) (hb : NamesRegister rb) (s : State) :
    exec (.add ra rb) s =
      .next ((s.setReg (namedReg ra ha) (aluAdd (s.reg (namedReg ra ha)) (s.reg (namedReg rb hb))).toNat).advance 3) :=
  withRegs_of_names ha hb s _

theorem exec_multiply {ra rb : Byte} (ha : NamesRegister ra) (hb : NamesRegister rb) (s : State) :
    exec (.multiply ra rb) s =
      .next ((s.setReg (namedReg ra ha) (aluMultiply (s.reg (namedReg ra ha)) (s.reg (namedReg rb hb))).toNat).advance 3) :=
  withRegs_of_names ha hb s _

theorem exec_compare {ra rb : Byte} (ha : NamesRegister ra) (hb : NamesRegister rb) (s : State) :
    exec (.compare ra rb) s =
      .next ((s.setFlag (aluCompare (s.reg (namedReg ra ha)) (s.reg (namedReg rb hb)))).advance 3) :=
  withRegs_of_names ha hb s _

/-- PUSH's write is at an 8-bit address, so it never raises (R47). -/
theorem exec_push {ra : Byte} (h : NamesRegister ra) (s : State) :
    exec (.push ra) s =
      .next (State.advance
        { s.decSp with mem := s.mem.write s.decSp.sp.toNat (s.decSp.reg (namedReg ra h)) } 2) := by
  show withReg _ _ _ = _
  rw [withReg_of_names h]
  simp only [memWrite_zext9, orRaise_ok, State.decSp_mem]

/-- POP's read is at an 8-bit address, so it never raises (R46). -/
theorem exec_pop {ra : Byte} (h : NamesRegister ra) (s : State) :
    exec (.pop ra) s =
      .next ((s.setReg (namedReg ra h) (s.mem.read s.sp.toNat).toNat).incSp.advance 2) := by
  show withReg _ _ _ = _
  rw [withReg_of_names h]
  simp only [memRead_zext9, orRaise_ok]

theorem exec_call {ra : Byte} (h : NamesRegister ra) (s : State) :
    exec (.call ra) s =
      .next (State.setPc { s.decSp with mem := s.mem.write s.decSp.sp.toNat s.returnAddress }
        (zext9 (s.decSp.reg (namedReg ra h)))) := by
  show withReg _ _ _ = _
  rw [withReg_of_names h]
  simp only [memWrite_zext9, orRaise_ok, State.decSp_mem]
  rfl

theorem exec_ret (s : State) : exec .ret s = .next ((s.setPc (zext9 (s.mem.read s.sp.toNat))).incSp) := by
  show orRaise _ _ _ = _
  rw [memRead_zext9, orRaise_ok]

theorem exec_jump {ra : Byte} (h : NamesRegister ra) (s : State) :
    exec (.jump ra) s = .next (s.setPc (zext9 (s.reg (namedReg ra h)))) :=
  withReg_of_names h s _

theorem exec_jumpIfEqual {ra : Byte} (h : NamesRegister ra) (s : State) :
    exec (.jumpIfEqual ra) s =
      .next (if s.fl = .equal then s.setPc (zext9 (s.reg (namedReg ra h))) else s.advance 2) :=
  withReg_of_names h s _

theorem exec_jumpIfNotEqual {ra : Byte} (h : NamesRegister ra) (s : State) :
    exec (.jumpIfNotEqual ra) s =
      .next (if s.fl ≠ .equal then s.setPc (zext9 (s.reg (namedReg ra h))) else s.advance 2) :=
  withReg_of_names h s _

/-- An instruction with two register operands of which one names no register: operand_a is reported first. -/
theorem withRegs_of_not_names {ra rb : Byte} (h : ¬ (NamesRegister ra ∧ NamesRegister rb)) (s : State)
    (k : RegIndex → RegIndex → Result) :
    ∃ b ∈ [ra, rb], 8 ≤ b.toNat ∧ withRegs ra rb s k = .next (s.raise ⟨.outOfRangeRegister, zext9 b⟩) := by
  unfold withRegs
  by_cases ha : NamesRegister ra
  · have hb : ¬ NamesRegister rb := fun hb => h ⟨ha, hb⟩
    exact ⟨rb, by simp, Nat.le_of_not_lt hb, by rw [withReg_of_names ha, withReg_of_not_names hb]⟩
  · exact ⟨ra, by simp, Nat.le_of_not_lt ha, by rw [withReg_of_not_names ha]⟩

/-- An instruction that is not well formed takes the register-index fault of one of its register operands, and has no other
effect (R143, R166). -/
theorem exec_of_not_wellFormed {i : Instr} (h : ¬ i.WellFormed) (s : State) :
    ∃ b ∈ i.registerOperands, 8 ≤ b.toNat ∧ exec i s = .next (s.raise ⟨.outOfRangeRegister, zext9 b⟩) := by
  cases i <;> simp only [Instr.WellFormed, Instr.registerOperands, List.mem_cons, List.not_mem_nil, or_false,
    forall_eq_or_imp, forall_eq, false_imp_iff, implies_true, not_true_eq_false] at h
  case add ra rb => exact withRegs_of_not_names h s _
  case multiply ra rb => exact withRegs_of_not_names h s _
  case compare ra rb => exact withRegs_of_not_names h s _
  all_goals exact ⟨_, List.mem_singleton.mpr rfl, Nat.le_of_not_lt h, withReg_of_not_names h s _⟩

end Sys2Proof.Machine
end

