-- ==== Sys2Proof/Laws/Fetch.lean ====
section
/-!
SUPPORT. What the fetch and the decode of a step can do, once (R141, R142, R165).
-/

namespace Sys2Proof.Machine

theorem State.CanFetch.toNat_pc_add {s : State} (h : s.CanFetch) {n : Nat} (hn : n ≤ 2) :
    (s.pc + BitVec.ofNat 9 n).toNat = s.pc.toNat + n := by
  unfold State.CanFetch at h
  rw [BitVec.toNat_add, BitVec.toNat_ofNat]
  omega

/-- With `p ≤ 253` the fetch reads the three bytes at `p`, `p + 1` and `p + 2` (R141). -/
theorem fetch_of_canFetch {s : State} (h : s.CanFetch) :
    fetch s = .ok (s.codeByte 0, s.codeByte 1, s.codeByte 2) := by
  have h1 : (s.pc + 1).toNat = s.pc.toNat + 1 := h.toNat_pc_add (n := 1) (by omega)
  have h2 : (s.pc + 2).toNat = s.pc.toNat + 2 := h.toNat_pc_add (n := 2) (by omega)
  unfold State.CanFetch at h
  have hm : Config.memSize = 256 := rfl
  have l0 : s.pc.toNat < Config.memSize := by omega
  have l1 : (s.pc + 1).toNat < Config.memSize := by omega
  have l2 : (s.pc + 2).toNat < Config.memSize := by omega
  unfold fetch
  rw [memRead_of_lt s l0, memRead_of_lt s l1, memRead_of_lt s l2, h1, h2]
  rfl

/-- With `p > 253` the fetch raises OutOfRangeAccess(Memory) with the first address that is out of range: 256 for every
reachable `p`, and `p` itself beyond (R141, R163). -/
theorem fetch_of_not_canFetch {s : State} (h : ¬ s.CanFetch) :
    fetch s = .error ⟨.outOfRangeMemory, if s.PcInRange then 256 else s.pc⟩ := by
  unfold State.CanFetch at h
  have hlt := s.pc.isLt
  have hcases : s.pc.toNat = 254 ∨ s.pc.toNat = 255 ∨ s.pc.toNat = 256 ∨ 256 < s.pc.toNat := by omega
  rcases hcases with h0 | h0 | h0 | h0
  · have hp : s.pc = BitVec.ofNat 9 254 := BitVec.eq_of_toNat_eq (by simpa using h0)
    simp [fetch, memRead, State.PcInRange, Config.memSize, hp]
  · have hp : s.pc = BitVec.ofNat 9 255 := BitVec.eq_of_toNat_eq (by simpa using h0)
    simp [fetch, memRead, State.PcInRange, Config.memSize, hp]
  · have hp : s.pc = BitVec.ofNat 9 256 := BitVec.eq_of_toNat_eq (by simpa using h0)
    simp [fetch, memRead, State.PcInRange, Config.memSize, hp]
  · have hr : ¬ s.PcInRange := by
      unfold State.PcInRange
      omega
    have hm : Config.memSize = 256 := rfl
    unfold fetch
    rw [memRead_of_not_lt s (by omega), if_neg hr]

/-- What fetch and decode answer where the opcode is in the map. -/
theorem fetchDecode_of_find {m : OpcodeMap} {s : State} {k : Mnemonic} (h : s.CanFetch)
    (hk : findMnemonic m (s.codeByte 0) = some k) :
    fetchDecode m s = .ok (buildInstr k (s.codeByte 1) (s.codeByte 2)) := by
  unfold fetchDecode
  rw [fetch_of_canFetch h]
  simp only [decodeWith_of_find _ _ hk]

/-- What fetch and decode answer where it is not. -/
theorem fetchDecode_of_none {m : OpcodeMap} {s : State} (h : s.CanFetch)
    (hk : findMnemonic m (s.codeByte 0) = none) :
    fetchDecode m s = .error ⟨.invalidInstruction, zext9 (s.codeByte 0)⟩ := by
  unfold fetchDecode
  rw [fetch_of_canFetch h]
  simp only [decodeWith_of_none _ _ hk]

theorem fetchDecode_of_not_canFetch {m : OpcodeMap} {s : State} (h : ¬ s.CanFetch) :
    fetchDecode m s = .error ⟨.outOfRangeMemory, if s.PcInRange then 256 else s.pc⟩ := by
  unfold fetchDecode
  rw [fetch_of_not_canFetch h]

theorem stepWith_running {m : OpcodeMap} {s : State} (h : s.run = .running) :
    stepWith m s = orRaise s (fetchDecode m s) fun i => exec i s := by
  unfold stepWith
  rw [h]

/-- What a step can do, once: the machine was Running, and the fetch raised, or the decode raised, or the decoded instruction
ran (R140 to R144). -/
theorem stepWith_next {m : OpcodeMap} {s t : State} (h : stepWith m s = .next t) :
    s.run = .running ∧
      ((¬ s.CanFetch ∧ t = s.raise ⟨.outOfRangeMemory, if s.PcInRange then 256 else s.pc⟩) ∨
       (s.CanFetch ∧ findMnemonic m (s.codeByte 0) = none ∧
          t = s.raise ⟨.invalidInstruction, zext9 (s.codeByte 0)⟩) ∨
       ∃ k, s.CanFetch ∧ findMnemonic m (s.codeByte 0) = some k ∧
          exec (buildInstr k (s.codeByte 1) (s.codeByte 2)) s = .next t) := by
  have hr : s.run = .running := by
    unfold stepWith at h
    cases hrun : s.run <;> rw [hrun] at h <;> first | rfl | cases h
  refine ⟨hr, ?_⟩
  rw [stepWith_running hr] at h
  by_cases hc : s.CanFetch
  · cases hk : findMnemonic m (s.codeByte 0) with
    | none =>
      rw [fetchDecode_of_none hc hk] at h
      exact .inr (.inl ⟨hc, rfl, (Host.Outcome.next.inj h).symm⟩)
    | some k =>
      rw [fetchDecode_of_find hc hk] at h
      exact .inr (.inr ⟨k, hc, rfl, h⟩)
  · rw [fetchDecode_of_not_canFetch hc] at h
    exact .inl ⟨hc, (Host.Outcome.next.inj h).symm⟩

end Sys2Proof.Machine
end

