-- ==== Sys2Proof/Laws/Flags.lean ====
section
/-!
SUPPORT. What the ALU's operations give (R123): sums and products modulo 256, and which of its three states the compare gives.
-/

namespace Sys2Proof.Machine

@[simp] theorem aluAdd_toNat (a b : Byte) : (aluAdd a b).toNat = (a.toNat + b.toNat) % 256 :=
  BitVec.toNat_ofNat _ _

@[simp] theorem aluMultiply_toNat (a b : Byte) : (aluMultiply a b).toNat = (a.toNat * b.toNat) % 256 :=
  BitVec.toNat_ofNat _ _

theorem aluCompare_of_lt {a b : Byte} (h : a.toNat < b.toNat) : aluCompare a b = .less := if_pos h

theorem aluCompare_of_gt {a b : Byte} (h : b.toNat < a.toNat) : aluCompare a b = .greater := by
  unfold aluCompare
  rw [if_neg (by omega), if_pos h]

@[simp] theorem aluCompare_self (a : Byte) : aluCompare a a = .equal := by simp [aluCompare]

/-- What the ALU block can answer: with a result, select 0 or 1 and the flag kept; without one, select 2 (R123). -/
theorem alu_ok {op : BitVec 2} {a b : Byte} {fl : Flag} {r : AluResult} (h : alu op a b fl = .ok r) :
    (op = 0 ∧ r = ⟨some (aluAdd a b), fl⟩) ∨ (op = 1 ∧ r = ⟨some (aluMultiply a b), fl⟩) ∨
      (op = 2 ∧ r = ⟨none, aluCompare a b⟩) := by
  unfold alu at h
  split at h
  next h0 => exact .inl ⟨h0, (Except.ok.inj h).symm⟩
  split at h
  next h1 => exact .inr (.inl ⟨h1, (Except.ok.inj h).symm⟩)
  split at h
  next h2 => exact .inr (.inr ⟨h2, (Except.ok.inj h).symm⟩)
  cases h

end Sys2Proof.Machine
end

