-- ==== Sys2Proof/Laws/PerInstr.lean ====
section
/-!
SUPPORT. The family EncodedShape, one lemma per constructor of Instr: the encoding of an instruction is its opcode byte and then its operand bytes,
as long as its format says, and each register operand the format declares is one of those bytes (R65, R66, R68).
-/

namespace Sys2Proof.Laws.EncodedShape

/-- What the encoding of one instruction looks like, for every opcode map. -/
def Statement (i : Instr) : Prop :=
  ∀ m : OpcodeMap,
    (encode m i).head? = some (m.byte i.mnemonic) ∧ (encode m i).tail = i.operands ∧
    (encode m i).length = lengthOf i.mnemonic ∧ i.operands.length = operandCount (formatOf i.mnemonic) ∧
    i.registerOperands <+: i.operands

theorem loadImmediate (ra imm : Byte) : Statement (.loadImmediate ra imm) := fun _ =>
  ⟨rfl, rfl, rfl, rfl, ⟨[imm], rfl⟩⟩

theorem printReg (ra : Byte) : Statement (.printReg ra) := fun _ => ⟨rfl, rfl, rfl, rfl, List.prefix_rfl⟩

theorem halt : Statement .halt := fun _ => ⟨rfl, rfl, rfl, rfl, by decide⟩

theorem add (ra rb : Byte) : Statement (.add ra rb) := fun _ => ⟨rfl, rfl, rfl, rfl, List.prefix_rfl⟩

theorem multiply (ra rb : Byte) : Statement (.multiply ra rb) := fun _ => ⟨rfl, rfl, rfl, rfl, List.prefix_rfl⟩

theorem push (ra : Byte) : Statement (.push ra) := fun _ => ⟨rfl, rfl, rfl, rfl, List.prefix_rfl⟩

theorem pop (ra : Byte) : Statement (.pop ra) := fun _ => ⟨rfl, rfl, rfl, rfl, List.prefix_rfl⟩

theorem call (ra : Byte) : Statement (.call ra) := fun _ => ⟨rfl, rfl, rfl, rfl, List.prefix_rfl⟩

theorem ret : Statement .ret := fun _ => ⟨rfl, rfl, rfl, rfl, by decide⟩

theorem compare (ra rb : Byte) : Statement (.compare ra rb) := fun _ => ⟨rfl, rfl, rfl, rfl, List.prefix_rfl⟩

theorem jump (ra : Byte) : Statement (.jump ra) := fun _ => ⟨rfl, rfl, rfl, rfl, List.prefix_rfl⟩

theorem jumpIfEqual (ra : Byte) : Statement (.jumpIfEqual ra) := fun _ => ⟨rfl, rfl, rfl, rfl, List.prefix_rfl⟩

theorem jumpIfNotEqual (ra : Byte) : Statement (.jumpIfNotEqual ra) := fun _ => ⟨rfl, rfl, rfl, rfl, List.prefix_rfl⟩

end Sys2Proof.Laws.EncodedShape
end

