-- ==== Sys2Proof/Laws/Run.lean ====
section
/-!
SUPPORT. Runs of any machine behind the host's interface: what holds at the start and is kept by every step holds at every state a run reaches, and
a state that steps to itself is a state no run leaves.
-/

namespace Sys2Proof.Laws

/-- An invariant of the step is an invariant of runs. -/
theorem run_keeps (M : Host.Core) (P : M.State → Prop) (hstep : ∀ s t, P s → M.step s = .next t → P t) (n : Nat) :
    ∀ s t, P s → M.run n s = .next t → P t := by
  induction n with
  | zero =>
    intro s t hs h
    simp only [Host.Core.run, Host.Outcome.next.injEq] at h
    exact h ▸ hs
  | succ n ih =>
    intro s t hs h
    simp only [Host.Core.run] at h
    cases hm : M.step s with
    | next u =>
      rw [hm] at h
      exact ih u t (hstep s u hs hm) h
    | fault r =>
      rw [hm] at h
      cases h
    | refused r =>
      rw [hm] at h
      cases h

/-- A state that steps to itself is never left. -/
theorem run_of_step_self (M : Host.Core) (s : M.State) (h : M.step s = .next s) (n : Nat) : M.run n s = .next s := by
  induction n with
  | zero => rfl
  | succ n ih => simp only [Host.Core.run, h, ih]

end Sys2Proof.Laws
end

