-- ==== Sys2Proof/Machine/Assembly.lean ====
section
/-!
DEFINITION. The spec's notation for instructions (R76): the long names of the source, the short names, and how operands are written. It is notation
only; no step reads it.
-/

namespace Sys2Proof.Machine

/-- The source's mnemonic (R70, R76). -/
def longName : Mnemonic → String
  | .loadImmediate => "LOAD_IMMEDIATE"
  | .printReg => "PRINT_REG"
  | .halt => "HALT"
  | .add => "ADD"
  | .multiply => "MULTIPLY"
  | .push => "PUSH"
  | .pop => "POP"
  | .call => "CALL"
  | .ret => "RETURN"
  | .compare => "COMPARE"
  | .jump => "JUMP"
  | .jumpIfEqual => "JUMP_IF_EQUAL"
  | .jumpIfNotEqual => "JUMP_IF_NOT_EQUAL"

/-- The spec's short mnemonic (R70, R76). -/
def shortName : Mnemonic → String
  | .loadImmediate => "LDI"
  | .printReg => "PRN"
  | .halt => "HLT"
  | .add => "ADD"
  | .multiply => "MUL"
  | .push => "PUSH"
  | .pop => "POP"
  | .call => "CALL"
  | .ret => "RET"
  | .compare => "CMP"
  | .jump => "JMP"
  | .jumpIfEqual => "JEQ"
  | .jumpIfNotEqual => "JNE"

/-- A register operand: `r` and its index in decimal (R76). -/
def registerText (b : Byte) : String := "r" ++ toString b.toNat

/-- The operands in the order operand_a, operand_b, separated by a comma; an immediate is a decimal number (R76). -/
def operandText : Instr → String
  | .loadImmediate ra imm => " " ++ registerText ra ++ "," ++ toString imm.toNat
  | .printReg ra => " " ++ registerText ra
  | .halt => ""
  | .add ra rb => " " ++ registerText ra ++ "," ++ registerText rb
  | .multiply ra rb => " " ++ registerText ra ++ "," ++ registerText rb
  | .push ra => " " ++ registerText ra
  | .pop ra => " " ++ registerText ra
  | .call ra => " " ++ registerText ra
  | .ret => ""
  | .compare ra rb => " " ++ registerText ra ++ "," ++ registerText rb
  | .jump ra => " " ++ registerText ra
  | .jumpIfEqual ra => " " ++ registerText ra
  | .jumpIfNotEqual ra => " " ++ registerText ra

/-- An instruction in the source's notation (R76). -/
def assemblyText (i : Instr) : String := longName i.mnemonic ++ operandText i

end Sys2Proof.Machine
end

