-- ==== Sys2Proof/Tests/Slice0.lean ====
section
/-!
SUPPORT. Tests of one step or one operation each. Expected results are the spec's own test vectors (95_test_vectors.md, V1 to V86), which it computed by
hand from its rules, or words written out from the table of R70. The witnesses at the end show that the hypotheses of the statements in
Certificates/Slice0/Obligations.lean can be met, clause by clause.
-/

namespace Sys2Proof.Tests

open Sys2Proof.Machine

/-- The answer is a next state that passes the check. -/
def nextIs (r : Result) (p : State → Bool) : Bool :=
  match r with
  | .next t => p t
  | _ => false

/-- The reset state with bytes placed from an address on and `pc` there. -/
def at_ (p : Nat) (bytes : List Byte) : State :=
  { loadFrom p bytes State.reset with pc := BitVec.ofNat 9 p }

/-- The state with one register set. -/
def set (i : RegIndex) (v : Nat) (s : State) : State := s.setReg i v

/-- The state with one byte of memory set. -/
def poke (a : Nat) (v : Byte) (s : State) : State := { s with mem := s.mem.write a v }

/-! ## Well-formedness: one ill-formed term for each check -/

theorem test_wf_accepts_registers : (Instr.add 0 7).WellFormed := by decide
theorem test_wf_refuses_operand_a : ¬ (Instr.push 8).WellFormed := by decide
theorem test_wf_refuses_operand_b : ¬ (Instr.compare 7 8).WellFormed := by decide
theorem test_wf_ignores_immediate : (Instr.loadImmediate 0 9).WellFormed := by decide

/-! ## Decoding: a word for every constructor, written out bit by bit from the table of R70 -/

theorem test_decode_loadImmediate : decode 0b10000010 0b00000011 0b11111111 = .ok (.loadImmediate 3 255) := by decide
theorem test_decode_printReg : decode 0b01000111 0b00000010 0b00000001 = .ok (.printReg 2) := by decide
theorem test_decode_halt : decode 0b00000001 0b00001001 0b00001010 = .ok .halt := by decide
theorem test_decode_add : decode 0b10100000 0b00000001 0b00000010 = .ok (.add 1 2) := by decide
theorem test_decode_multiply : decode 0b10100010 0b00000001 0b00000010 = .ok (.multiply 1 2) := by decide
theorem test_decode_push : decode 0b01000101 0b00000001 0b00000000 = .ok (.push 1) := by decide
theorem test_decode_pop : decode 0b01000110 0b00000001 0b00000000 = .ok (.pop 1) := by decide
theorem test_decode_call : decode 0b01010000 0b00000001 0b00000000 = .ok (.call 1) := by decide
theorem test_decode_ret : decode 0b00010001 0b00001001 0b00001010 = .ok .ret := by decide
theorem test_decode_compare : decode 0b10100111 0b00000001 0b00000010 = .ok (.compare 1 2) := by decide
theorem test_decode_jump : decode 0b01010100 0b00000010 0b00000000 = .ok (.jump 2) := by decide
theorem test_decode_jumpIfEqual : decode 0b01010101 0b00000010 0b00000000 = .ok (.jumpIfEqual 2) := by decide
theorem test_decode_jumpIfNotEqual : decode 0b01010110 0b00000010 0b00000000 = .ok (.jumpIfNotEqual 2) := by decide
/-- V73, V76: the fill byte, and the byte between ADD and MULTIPLY. -/
theorem test_decode_refuses_invalid :
    decode 0x00 0 0 = .error (.invalidInstruction 0x00) ∧ decode 0xA1 0 1 = .error (.invalidInstruction 0xA1) := by decide
theorem test_decode_refuses_truncated : decodeBytes defaultOpcodeMap [0xA0, 0x00] = .error .truncated := by decide
/-- The program of S1. -/
theorem test_decode_program :
    decodeProgram defaultOpcodeMap [0x82, 0, 5, 0x82, 1, 3, 0xA0, 0, 1, 0x47, 0, 0x01] =
      .ok [.loadImmediate 0 5, .loadImmediate 1 3, .add 0 1, .printReg 0, .halt] := by decide
theorem test_table_word : decodeTableWord 8 0xA0 = some (.add 0 0) ∧ decodeTableWord 8 0x00 = none := by decide

/-! ## Steps: the spec's vectors -/

/-- V3: the stack pointer is an ordinary destination. -/
theorem test_loadImmediate_sp : nextIs (step (at_ 0 [0x82, 7, 0x80])) (fun t => t.sp = 0x80 ∧ t.pc = 3) := by decide
/-- V5. -/
theorem test_loadImmediate_bad_register :
    nextIs (step (at_ 0 [0x82, 8, 1])) (fun t => t.run = .faulted ∧ t.fault = ⟨.outOfRangeRegister, 0, 8⟩ ∧ t.pc = 0) := by decide
/-- V8. -/
theorem test_printReg_sp : nextIs (step (at_ 5 [0x47, 7])) (fun t => t.out = [0xF4] ∧ t.pc = 7) := by decide
/-- R36: a zero, a two-digit and a three-digit value. -/
theorem test_sink_text : sinkText defaultLineBreak [0, 42, 255] = [0x30, 10, 0x34, 0x32, 10, 0x32, 0x35, 0x35, 10] := by decide
/-- V13. -/
theorem test_add_wraps : nextIs (step (at_ 0 [0xA0, 0, 1] |> set 0 0xC8 |> set 1 0x64)) (fun t => t.reg 0 = 0x2C ∧ t.reg 1 = 0x64) := by decide
/-- V26: operand_a is reported before operand_b. -/
theorem test_add_reports_first : nextIs (step (at_ 0 [0xA0, 9, 10])) (fun t => t.fault = ⟨.outOfRangeRegister, 0, 9⟩) := by decide
/-- V22: squares the register. -/
theorem test_multiply_square : nextIs (step (at_ 0 [0xA2, 0, 0] |> set 0 0x2C)) (fun t => t.reg 0 = 0x90 ∧ t.pc = 3) := by decide
/-- V21. -/
theorem test_multiply_high_byte_lost :
    nextIs (step (at_ 0 [0xA2, 0, 1] |> set 0 0xFF |> set 1 0xFF)) (fun t => t.reg 0 = 1) := by decide
/-- V36: unsigned. -/
theorem test_compare_unsigned : nextIs (step (at_ 0 [0xA7, 0, 1] |> set 0 0x80 |> set 1 0x7F)) (fun t => t.fl = .greater) := by decide
/-- V33. -/
theorem test_compare_less : nextIs (step (at_ 0 [0xA7, 0, 1] |> set 0 5 |> set 1 6)) (fun t => t.fl = .less ∧ t.pc = 3) := by decide
/-- V44: PUSH R7 stores the decremented pointer. -/
theorem test_push_sp : nextIs (step (at_ 0 [0x45, 7])) (fun t => t.sp = 0xF3 ∧ t.mem.read 0xF3 = 0xF3) := by decide
/-- V42: SP wraps. -/
theorem test_push_wraps :
    nextIs (step (at_ 0 [0x45, 0] |> set 0 0xAB |> set 7 0)) (fun t => t.sp = 0xFF ∧ t.mem.read 0xFF = 0xAB ∧ t.pc = 2) := by decide
/-- V49: POP R7 leaves the loaded value plus one. -/
theorem test_pop_sp : nextIs (step (at_ 0 [0x46, 7] |> set 7 0xF3 |> poke 0xF3 0x20)) (fun t => t.sp = 0x21 ∧ t.pc = 2) := by decide
/-- V48: SP wraps. -/
theorem test_pop_wraps :
    nextIs (step (at_ 0 [0x46, 1] |> set 7 0xFF |> poke 0xFF 0x77)) (fun t => t.reg 1 = 0x77 ∧ t.sp = 0) := by decide
/-- V53: the largest return address. -/
theorem test_call_top :
    nextIs (step (at_ 0xFD [0x50, 1, 0] |> set 1 0x10)) (fun t => t.sp = 0xF3 ∧ t.mem.read 0xF3 = 0xFF ∧ t.pc = 0x10) := by decide
/-- V54: the target is read after the decrement. -/
theorem test_call_sp : nextIs (step (at_ 0 [0x50, 7])) (fun t => t.pc = 0xF3 ∧ t.mem.read 0xF3 = 2) := by decide
/-- V60: no operand byte of RETURN is checked. -/
theorem test_ret :
    nextIs (step (at_ 0x15 [0x11, 9, 10] |> set 7 0xF3 |> poke 0xF3 8)) (fun t => t.pc = 8 ∧ t.sp = 0xF4 ∧ t.run = .running) := by decide
/-- V61: no flag interaction. -/
theorem test_jump :
    nextIs (step ({ at_ 3 [0x54, 0] with fl := .less } |> set 0 0x40)) (fun t => t.pc = 0x40 ∧ t.fl = .less) := by decide
/-- V65. -/
theorem test_jumpIfEqual_not_taken :
    nextIs (step ({ at_ 0x0F [0x55, 2] with fl := .less } |> set 2 0x30)) (fun t => t.pc = 0x11) := by decide
/-- V67: the index is checked before the flag is looked at. -/
theorem test_jumpIfEqual_bad_register :
    nextIs (step { at_ 0x0F [0x55, 9] with fl := .less }) (fun t => t.fault = ⟨.outOfRangeRegister, 0x0F, 9⟩) := by decide
/-- V66. -/
theorem test_jumpIfNotEqual_taken :
    nextIs (step ({ at_ 0x0F [0x56, 2] with fl := .greater } |> set 2 0x30)) (fun t => t.pc = 0x30) := by decide
/-- V70. -/
theorem test_halt : nextIs (step (at_ 0x0B [1, 9, 10])) (fun t => t.run = .halted ∧ t.pc = 0x0B) := by decide
/-- V72: a HALT at 254 faults in its fetch. -/
theorem test_halt_above_top : nextIs (step (at_ 0xFE [1, 0])) (fun t => t.fault = ⟨.outOfRangeMemory, 0xFE, 256⟩) := by decide
/-- V74, V78: an invalid opcode has no operands, and the fetch range comes first. -/
theorem test_fault_priority :
    nextIs (step (at_ 0 [0xFF, 9, 10])) (fun t => t.fault = ⟨.invalidInstruction, 0, 0xFF⟩) ∧
    nextIs (step (at_ 0xFE [0xFF])) (fun t => t.fault = ⟨.outOfRangeMemory, 0xFE, 256⟩) := by decide
/-- R123: `y` is eight bits wide: the carry out and the high byte are gone. -/
theorem test_alu_width :
    alu 0 0xFF 0x01 .less = .ok ⟨some 0x00, .less⟩ ∧ alu 1 0xFF 0xFF .less = .ok ⟨some 0x01, .less⟩ := by decide
/-- R162: the ALU's fourth select. -/
theorem test_alu_fourth_select : alu 3 1 2 .less = .error ⟨.unsupportedALUOperation, 3⟩ := by decide
/-- R160: the cause codes. -/
theorem test_cause_codes :
    [causeCode .none, causeCode .invalidInstruction, causeCode .unsupportedALUOperation, causeCode .outOfRangeMemory,
      causeCode .outOfRangeRegister] = [0, 1, 2, 3, 4] := by decide
/-- R191: a program of 257 bytes is refused. -/
theorem test_load_refuses_long : hostLoad 0xF4 (List.replicate 257 0x01) = none :=
  if_neg (by rw [List.length_replicate]; decide)
/-- R76: the source's own example. -/
theorem test_assembly :
    ([.loadImmediate 0 5, .loadImmediate 1 3, .add 0 1, .printReg 0, .halt] : List Instr).map assemblyText =
      ["LOAD_IMMEDIATE r0,5", "LOAD_IMMEDIATE r1,3", "ADD r0,r1", "PRINT_REG r0", "HALT"] := by decide
/-- The placed word is what the next step runs, and placing keeps the canonical form. -/
theorem test_withFetchWord :
    nextIs (step (State.reset.withFetchWord 8 0x47)) (fun t => t.out = [0]) ∧ (State.reset.withFetchWord 8 0x47).mem.wf := by decide

/-! ## Witnesses: states and operands that meet the hypotheses of the statements -/

/-- The clause of each instruction rule about a fetch above the top: `pc` at 254, 255 and 256. -/
theorem witness_FetchFaultsAboveTop :
    ∀ p ∈ [254, 255, 256], (at_ p []).run = .running ∧ (at_ p []).PcInRange ∧ ¬ (at_ p []).CanFetch := by decide

/-- FetchReadsThreeBytes: `pc` at the edges 253, 254, 256 and 257 of its three clauses. -/
theorem witness_FetchReadsThreeBytes :
    (at_ 253 []).pc.toNat ≤ 253 ∧ (253 < (at_ 254 []).pc.toNat ∧ (at_ 254 []).pc.toNat ≤ 256) ∧
    (253 < (at_ 256 []).pc.toNat ∧ (at_ 256 []).pc.toNat ≤ 256) ∧ 256 < (at_ 257 []).pc.toNat := by decide

/-- The operand clauses of LoadImmediateRule, PrintRegRule, AddRule, MultiplyRule, CompareRule, PushRule, PopRule, CallRule, JumpRule,
JumpIfEqualRule and JumpIfNotEqualRule at both ends of their ranges: 0 and 7 name registers, 8 and 255 do not. -/
theorem witness_operand_clauses :
    NamesRegister 0 ∧ NamesRegister 7 ∧ 8 ≤ (8 : Byte).toNat ∧ 8 ≤ (255 : Byte).toNat := by decide

theorem witness_LoadPlacesProgramFromZero :
    ([] : List Byte).length ≤ 256 ∧ (List.replicate 256 (1 : Byte)).length ≤ 256 ∧
    256 < (List.replicate 257 (1 : Byte)).length := by
  rw [List.length_replicate, List.length_replicate]
  exact ⟨Nat.zero_le _, by omega, by omega⟩

theorem witness_FirstStepFetchesAtZero : (hostLoad 0xF4 [0x47, 0x00]).isSome = true := by decide

theorem witness_StepRunsTheDecodedInstruction :
    (at_ 253 [0x01, 0, 0]).run = .running ∧ (at_ 253 [0x01, 0, 0]).CanFetch ∧
    decode ((at_ 253 [0x01, 0, 0]).codeByte 0) ((at_ 253 [0x01, 0, 0]).codeByte 1) ((at_ 253 [0x01, 0, 0]).codeByte 2) =
      .ok .halt := by decide

theorem witness_InvalidOpcodesAreRefused :
    (at_ 253 [0x02]).run = .running ∧ (at_ 253 [0x02]).CanFetch ∧
    ∀ k ∈ Mnemonic.all, defaultOpcodeMap.byte k ≠ (at_ 253 [0x02]).codeByte 0 := by decide

theorem witness_IgnoredBytesTakeNoPart : formatOf .halt = .z ∧ formatOf .push = .r := by decide

theorem witness_EncodeOfDecode :
    decodeBytes defaultOpcodeMap [0xA0, 0xFF, 1, 0x01] = .ok (.add 0xFF 1, [0x01]) ∧ decode 0x45 3 0x01 = .ok (.push 3) := by decide

/-- CALL's effect at both ends of the addresses a step can run it at. -/
theorem witness_CallRule : (at_ 0 [0x50, 7]).CanFetch ∧ (at_ 253 [0x50, 7]).CanFetch ∧ NamesRegister 7 := by decide

/-- The flag clauses of JumpIfEqualRule and JumpIfNotEqualRule. -/
theorem witness_conditional_jumps :
    (at_ 0 []).fl = .equal ∧ ({ at_ 0 [] with fl := .less } : State).fl ≠ .equal ∧
    ({ at_ 0 [] with fl := .greater } : State).fl = .greater := by decide

theorem witness_HaltRule : nextIs (exec .halt (at_ 0 [])) (fun _ => true) := by decide

theorem witness_FrameOfRegisterWriters :
    nextIs (exec (.loadImmediate 7 255) (at_ 0 [])) (fun _ => true) ∧ nextIs (exec (.add 7 0) (at_ 0 [])) (fun _ => true) ∧
    nextIs (exec (.multiply 8 0) (at_ 0 [])) (fun t => t.run = .faulted) := by decide

theorem witness_FrameOfPop :
    nextIs (exec (.pop 7) (at_ 0 [])) (fun _ => true) ∧ nextIs (exec (.pop 8) (at_ 0 [])) (fun t => t.run = .faulted) := by decide

theorem witness_FrameOfStores :
    nextIs (exec (.push 7) (at_ 0 [] |> set 7 0)) (fun t => t.sp = 0xFF) ∧ nextIs (exec (.call 0) (at_ 0 [])) (fun _ => true) := by decide

theorem witness_FrameOfReturn : nextIs (exec .ret (at_ 0 [])) (fun _ => true) := by decide

theorem witness_FrameOfTheOthers :
    ∀ i ∈ [Instr.printReg 7, .compare 0 7, .jump 7, .jumpIfEqual 7, .jumpIfNotEqual 8, .halt],
      nextIs (exec i (at_ 0 [])) (fun _ => true) ∧
      i.mnemonic ∈ [Mnemonic.printReg, .compare, .jump, .jumpIfEqual, .jumpIfNotEqual, .halt] := by decide

/-- A Running state in range, a Halted and a Faulted state. -/
theorem witness_StepPhasesInOrder_ExecutionLoopTransitions :
    (at_ 256 []).PcInRange ∧
    (at_ 256 []).run = .running ∧ ({ at_ 0 [] with run := .halted } : State).run = .halted ∧
    ({ at_ 0 [] with run := .faulted } : State).run = .faulted := by decide

theorem witness_FaultEntryChangesOnlyRunAndFault : nextIs (step (at_ 0 [0x00])) (fun t => t.run = .faulted) := by decide

/-- A state with the invariant and a step from it: one that goes on, one that faults. -/
theorem witness_StepKeepsInvariant :
    (at_ 0 [0x45, 7]).Inv ∧ nextIs (step (at_ 0 [0x45, 7])) (fun _ => true) :=
  ⟨by decide, by decide⟩

theorem witness_StepKeepsInvariant_faulting :
    (at_ 254 [0x01]).Inv ∧ nextIs (step (at_ 254 [0x01])) (fun t => t.run = .faulted) :=
  ⟨by decide, by decide⟩

/-- The Faulted case of the invariant can be met. -/
theorem witness_invariant_when_faulted :
    State.Inv { at_ 0 [0x45, 8] with run := .faulted, fault := ⟨.outOfRangeRegister, 0, 8⟩ } := by decide

theorem witness_LoadHasInvariant : (hostLoad 0xF4 (List.replicate 3 0x47)).isSome = true := by decide

/-- Each clause of EachInstructionSetsPc: a faulting step, and a step of each group of instructions, at `pc` 253 where the group allows it. -/
theorem witness_EachInstructionSetsPc :
    nextIs (step (at_ 255 [])) (fun t => t.run = .faulted) ∧
    ∀ b ∈ ([0x82, 0xA0, 0xA2, 0xA7, 0x47, 0x45, 0x46, 0x01, 0x11, 0x50, 0x54, 0x55, 0x56] : List Byte),
      nextIs (step (at_ 253 [b, 7, 0])) (fun t => t.run ≠ .faulted ∧ (7 : RegIndex).val = ((at_ 253 [b, 7, 0]).codeByte 1).toNat) := by
  decide

theorem witness_FlagWrittenByCompareReadByJumps :
    nextIs (step (at_ 0 [0xA7, 0, 7])) (fun t => t.fl ≠ (at_ 0 [0xA7, 0, 7]).fl ∧ t.run ≠ .faulted) ∧
    (at_ 0 [0xA7, 0, 7]).codeByte 0 = defaultOpcodeMap.byte .compare ∧
    nextIs (step (at_ 0 [0xA7, 0, 8])) (fun t => t.run = .faulted) ∧
    nextIs (step (at_ 0 [0x55, 7])) (fun _ => true) ∧ (at_ 0 [0x55, 7]).codeByte 0 ≠ defaultOpcodeMap.byte .compare ∧
    (at_ 0 [0xA7, 0, 7]).codeByte 0 ≠ defaultOpcodeMap.byte .jumpIfEqual ∧
    (at_ 0 [0xA7, 0, 7]).codeByte 0 ≠ defaultOpcodeMap.byte .jumpIfNotEqual := by decide

theorem witness_OutputGrowsOnlyByPrint_OutputIsNeverRead : nextIs (step (at_ 0 [0x47, 7])) (fun t => t.out = [0xF4]) := by decide

theorem witness_RegistersChangeOnlyWhereNamed :
    nextIs (step (at_ 0 [0x82, 0, 1])) (fun t => t.reg 0 ≠ (at_ 0 [0x82, 0, 1]).reg 0) ∧
    nextIs (step (at_ 0 [0x11])) (fun t => t.reg 7 ≠ (at_ 0 [0x11]).reg 7) := by decide

theorem witness_MemoryChangesOnlyByPushAndCall :
    nextIs (step (at_ 0 [0x45, 7] |> set 7 0)) (fun t => t.mem.read 255 ≠ (at_ 0 [0x45, 7] |> set 7 0).mem.read 255) := by decide

theorem witness_CallThenReturnComesBack :
    NamesRegister 7 ∧ (at_ 253 []).CanFetch ∧
    nextIs (exec (.call 7) (at_ 253 [])) (fun t => t.sp = (at_ 253 []).sp - 1 ∧ t.mem.read ((at_ 253 []).sp - 1).toNat = 255) := by decide

/-- The store, of PUSH and of CALL, lands on the opcode, on operand_a, on operand_b of the next fetch, or elsewhere. -/
theorem witness_StoreIsSeenByNextFetch :
    NamesRegister 0 ∧ ∀ p ∈ [0, 1, 2, 3],
      nextIs (exec (.push 0) (at_ 0 [] |> set 0 9 |> set 7 (3 + p)))
        (fun t => t.CanFetch ∧ t.sp.toNat = t.pc.toNat + p ∧ (9 : Byte) = t.reg 0) ∧
      (at_ 253 []).CanFetch ∧ (255 : Byte).toNat = (at_ 253 []).pc.toNat + 2 ∧
      nextIs (exec (.call 0) (at_ 253 [] |> set 0 9 |> set 7 (10 + p))) (fun t => t.CanFetch ∧ t.sp.toNat = t.pc.toNat + p) := by
  decide

theorem witness_JumpToItselfNeverEnds :
    (at_ 253 [0x54, 0] |> set 0 253).run = .running ∧ (at_ 253 [0x54, 0] |> set 0 253).CanFetch ∧
    (at_ 253 [0x54, 0] |> set 0 253).codeByte 0 = 0x54 ∧ ((at_ 253 [0x54, 0] |> set 0 253).codeByte 1).toNat = (0 : RegIndex).val ∧
    zext9 ((at_ 253 [0x54, 0] |> set 0 253).reg 0) = (at_ 253 [0x54, 0] |> set 0 253).pc := by decide

/-- Both clauses of MemoryPrimitives at the edge between them, and a canonical memory. -/
theorem witness_MemoryPrimitives :
    (255 : PcWord).toNat < 256 ∧ 256 ≤ (256 : PcWord).toNat ∧ (at_ 0 [1, 0, 2]).mem.wf := by decide

theorem witness_RegisterPrimitives : (7 : Byte).toNat < 8 ∧ 8 ≤ (8 : Byte).toNat := by decide

end Sys2Proof.Tests
end

section
/-!
PROOFS. The state family (10_state.md). `Executes` says once what an instruction whose operands name registers does, and `exec_next_iff`
and `stepWith_outcome` tie it to `exec` and to the step; every frame, every step statement and the invariant is read off these.
-/

namespace Sys2Proof

/-- The operand byte the register-index check reports: the first that names no register, operand_a before operand_b (R143). -/
def Instr.badOperand? (i : Instr) : Option Byte := i.registerOperands.find? fun b => ¬ NamesRegister b

theorem Instr.badOperand?_eq_none {i : Instr} : i.badOperand? = none ↔ i.WellFormed := by
  simp [Instr.badOperand?, Instr.WellFormed]

theorem Instr.mem_of_badOperand? {i : Instr} {b : Byte} (h : i.badOperand? = some b) :
    b ∈ i.registerOperands ∧ 8 ≤ b.toNat :=
  ⟨List.mem_of_find?_eq_some h, by simpa using List.find?_some h⟩

theorem Instr.not_wellFormed_of_badOperand? {i : Instr} {b : Byte} (h : i.badOperand? = some b) : ¬ i.WellFormed := by
  simp [← Instr.badOperand?_eq_none, h]

/-- The register operands of a decoded instruction are fetched operand bytes. -/
theorem eq_or_eq_of_mem_registerOperands {k : Mnemonic} {opa opb b : Byte}
    (h : b ∈ (buildInstr k opa opb).registerOperands) : b = opa ∨ b = opb := by
  cases k with
  | halt | ret => cases h
  | add | multiply | compare => simpa [buildInstr, Instr.registerOperands] using h
  | _ => exact .inl (List.mem_singleton.mp h)

/-- The registers an instruction may change (R23). -/
def Instr.WritesReg (j : Machine.RegIndex) : Instr → Prop
  | .loadImmediate ra _ | .add ra _ | .multiply ra _ => j.val = ra.toNat
  | .pop ra => j.val = ra.toNat ∨ j = Machine.spIndex
  | .push _ | .call _ | .ret => j = Machine.spIndex
  | _ => False

theorem Instr.writesReg_buildInstr {j : Machine.RegIndex} {k : Mnemonic} {opa opb : Byte}
    (h : (buildInstr k opa opb).WritesReg j) :
    (j.val = opa.toNat ∧ k ∈ [Mnemonic.loadImmediate, .add, .multiply, .pop]) ∨
      (j = 7 ∧ k ∈ [Mnemonic.push, .pop, .call, .ret]) := by
  cases k with
  | loadImmediate | add | multiply => exact .inl ⟨h, by decide⟩
  | pop => exact h.imp (⟨·, by decide⟩) (⟨·, by decide⟩)
  | push | call | ret => exact .inr ⟨h, by decide⟩
  | _ => exact h.elim

namespace Machine

/-! ## What an instruction does -/

/-- The execute phase: what each instruction does to the state where its register operands name registers. -/
inductive Executes (s : State) : Instr → State → Prop
  | loadImmediate {ra : Byte} (imm : Byte) (ha : NamesRegister ra) :
      Executes s (.loadImmediate ra imm) ((s.setReg (namedReg ra ha) imm.toNat).advance 3)
  | printReg {ra : Byte} (ha : NamesRegister ra) :
      Executes s (.printReg ra) ((s.emit (s.reg (namedReg ra ha))).advance 2)
  | halt : Executes s .halt { s with run := .halted }
  | add {ra rb : Byte} (ha : NamesRegister ra) (hb : NamesRegister rb) :
      Executes s (.add ra rb)
        ((s.setReg (namedReg ra ha) (aluAdd (s.reg (namedReg ra ha)) (s.reg (namedReg rb hb))).toNat).advance 3)
  | multiply {ra rb : Byte} (ha : NamesRegister ra) (hb : NamesRegister rb) :
      Executes s (.multiply ra rb)
        ((s.setReg (namedReg ra ha) (aluMultiply (s.reg (namedReg ra ha)) (s.reg (namedReg rb hb))).toNat).advance 3)
  | push {ra : Byte} (ha : NamesRegister ra) :
      Executes s (.push ra)
        (State.advance { s.decSp with mem := s.mem.write s.decSp.sp.toNat (s.decSp.reg (namedReg ra ha)) } 2)
  | pop {ra : Byte} (ha : NamesRegister ra) :
      Executes s (.pop ra) ((s.setReg (namedReg ra ha) (s.mem.read s.sp.toNat).toNat).incSp.advance 2)
  | call {ra : Byte} (ha : NamesRegister ra) :
      Executes s (.call ra)
        (State.setPc { s.decSp with mem := s.mem.write s.decSp.sp.toNat s.returnAddress }
          (zext9 (s.decSp.reg (namedReg ra ha))))
  | ret : Executes s .ret (s.setPc (zext9 (s.mem.read s.sp.toNat))).incSp
  | compare {ra rb : Byte} (ha : NamesRegister ra) (hb : NamesRegister rb) :
      Executes s (.compare ra rb)
        ((s.setFlag (aluCompare (s.reg (namedReg ra ha)) (s.reg (namedReg rb hb)))).advance 3)
  | jump {ra : Byte} (ha : NamesRegister ra) : Executes s (.jump ra) (s.setPc (zext9 (s.reg (namedReg ra ha))))
  | jumpIfEqual {ra : Byte} (ha : NamesRegister ra) :
      Executes s (.jumpIfEqual ra) (s.setPc (if s.fl = .equal then zext9 (s.reg (namedReg ra ha)) else s.pc + 2))
  | jumpIfNotEqual {ra : Byte} (ha : NamesRegister ra) :
      Executes s (.jumpIfNotEqual ra) (s.setPc (if s.fl ≠ .equal then zext9 (s.reg (namedReg ra ha)) else s.pc + 2))

section
variable {s t : State} {i : Instr}

/-- What `Executes` says is what `exec` answers. -/
theorem Executes.exec_eq (h : Executes s i t) : exec i s = .next t := by
  cases h with
  | loadImmediate imm ha => exact exec_loadImmediate imm ha s
  | printReg ha => exact exec_printReg ha s
  | halt => exact exec_halt s
  | add ha hb => exact exec_add ha hb s
  | multiply ha hb => exact exec_multiply ha hb s
  | push ha => exact exec_push ha s
  | pop ha => exact exec_pop ha s
  | call ha => exact exec_call ha s
  | ret => exact exec_ret s
  | compare ha hb => exact exec_compare ha hb s
  | jump ha => exact exec_jump ha s
  | jumpIfEqual ha =>
    rw [exec_jumpIfEqual ha, apply_ite s.setPc]
    rfl
  | jumpIfNotEqual ha =>
    rw [exec_jumpIfNotEqual ha, apply_ite s.setPc]
    rfl

theorem exists_executes (h : i.WellFormed) (s : State) : ∃ t, Executes s i t := by
  cases i with
  | loadImmediate ra imm => exact ⟨_, .loadImmediate imm (h ra List.mem_cons_self)⟩
  | printReg ra => exact ⟨_, .printReg (h ra List.mem_cons_self)⟩
  | halt => exact ⟨_, .halt⟩
  | add ra rb => exact ⟨_, .add (h ra List.mem_cons_self) (h rb (List.mem_cons_of_mem _ List.mem_cons_self))⟩
  | multiply ra rb => exact ⟨_, .multiply (h ra List.mem_cons_self) (h rb (List.mem_cons_of_mem _ List.mem_cons_self))⟩
  | push ra => exact ⟨_, .push (h ra List.mem_cons_self)⟩
  | pop ra => exact ⟨_, .pop (h ra List.mem_cons_self)⟩
  | call ra => exact ⟨_, .call (h ra List.mem_cons_self)⟩
  | ret => exact ⟨_, .ret⟩
  | compare ra rb => exact ⟨_, .compare (h ra List.mem_cons_self) (h rb (List.mem_cons_of_mem _ List.mem_cons_self))⟩
  | jump ra => exact ⟨_, .jump (h ra List.mem_cons_self)⟩
  | jumpIfEqual ra => exact ⟨_, .jumpIfEqual (h ra List.mem_cons_self)⟩
  | jumpIfNotEqual ra => exact ⟨_, .jumpIfNotEqual (h ra List.mem_cons_self)⟩

theorem withReg_of_badOperand {ra b : Byte} (h : [ra].find? (fun b => ¬ NamesRegister b) = some b) (s : State)
    (k : RegIndex → Result) : withReg ra s k = .next (s.raise ⟨.outOfRangeRegister, zext9 b⟩) := by
  obtain rfl := List.mem_singleton.mp (List.mem_of_find?_eq_some h)
  exact withReg_of_not_names (by simpa using List.find?_some h) s k

theorem withRegs_of_badOperand {ra rb b : Byte} (h : [ra, rb].find? (fun b => ¬ NamesRegister b) = some b) (s : State)
    (k : RegIndex → RegIndex → Result) : withRegs ra rb s k = .next (s.raise ⟨.outOfRangeRegister, zext9 b⟩) := by
  by_cases ha : NamesRegister ra
  · rw [List.find?_cons_of_neg (by simpa using ha)] at h
    rw [withRegs, withReg_of_names ha]
    exact withReg_of_badOperand h s _
  · rw [List.find?_cons_of_pos (by simpa using ha)] at h
    obtain rfl := Option.some.inj h
    exact withReg_of_not_names ha s _

/-- The register-index fault, with the byte it reports (R143). -/
theorem exec_of_badOperand? {b : Byte} (h : i.badOperand? = some b) (s : State) :
    exec i s = .next (s.raise ⟨.outOfRangeRegister, zext9 b⟩) := by
  cases i with
  | halt | ret => cases h
  | add | multiply | compare => exact withRegs_of_badOperand h s _
  | loadImmediate | printReg | push | pop | call | jump | jumpIfEqual | jumpIfNotEqual =>
    exact withReg_of_badOperand h s _

/-- What `exec` can answer: the register-index fault, or what the instruction does. -/
theorem exec_next_iff :
    exec i s = .next t ↔
      (∃ b, i.badOperand? = some b ∧ t = s.raise ⟨.outOfRangeRegister, zext9 b⟩) ∨ Executes s i t := by
  constructor
  · intro h
    cases hb : i.badOperand? with
    | some b =>
      rw [exec_of_badOperand? hb] at h
      exact .inl ⟨b, rfl, (Host.Outcome.next.inj h).symm⟩
    | none =>
      obtain ⟨u, hu⟩ := exists_executes (Instr.badOperand?_eq_none.mp hb) s
      obtain rfl := Host.Outcome.next.inj (hu.exec_eq.symm.trans h)
      exact .inr hu
  · rintro (⟨b, hb, rfl⟩ | h)
    · exact exec_of_badOperand? hb s
    · exact h.exec_eq

/-! ## What the execute phase leaves unchanged -/

theorem Executes.reg_eq {j : RegIndex} (h : Executes s i t) (hj : ¬ i.WritesReg j) : t.reg j = s.reg j := by
  cases h with
  | loadImmediate | add | multiply => exact State.reg_setReg_other s _ fun e => hj (congrArg Fin.val e)
  | pop =>
    obtain ⟨hra, hsp⟩ := not_or.mp hj
    exact (State.reg_setReg_other _ _ hsp).trans (State.reg_setReg_other s _ fun e => hra (congrArg Fin.val e))
  | push | call | ret => exact State.reg_setReg_other s _ hj
  | _ => rfl

/-- Only a store changes memory, at the decremented stack pointer (R60). -/
theorem Executes.read_eq {a : Nat} (h : Executes s i t)
    (ha : i.mnemonic = .push ∨ i.mnemonic = .call → a ≠ s.decSp.sp.toNat) : t.mem.read a = s.mem.read a := by
  cases h with
  | push => exact Memory.read_write_other s.mem _ (ha (.inl rfl))
  | call => exact Memory.read_write_other s.mem _ (ha (.inr rfl))
  | _ => rfl

theorem Executes.fl_eq (h : Executes s i t) (hi : i.mnemonic ≠ .compare) : t.fl = s.fl := by
  cases h with
  | compare => exact absurd rfl hi
  | _ => rfl

theorem Executes.out_eq (h : Executes s i t) (hi : i.mnemonic ≠ .printReg) : t.out = s.out := by
  cases h with
  | printReg => exact absurd rfl hi
  | _ => rfl

theorem Executes.run_eq (h : Executes s i t) (hi : i.mnemonic ≠ .halt) : t.run = s.run := by
  cases h with
  | halt => exact absurd rfl hi
  | _ => rfl

theorem Executes.fault_eq (h : Executes s i t) : t.fault = s.fault := by
  cases h <;> rfl

theorem Executes.run_ne_faulted (h : Executes s i t) (hs : s.run = .running) : t.run ≠ .faulted := by
  cases h with
  | halt => nofun
  | _ => exact fun e => nomatch hs.symm.trans e

/-! The same of `exec`, a register-index fault among its answers. -/

theorem exec_reg_eq {j : RegIndex} (h : exec i s = .next t) (hj : ¬ i.WritesReg j) : t.reg j = s.reg j := by
  obtain ⟨b, -, rfl⟩ | h := exec_next_iff.mp h
  · rfl
  · exact h.reg_eq hj

theorem exec_read_eq {a : Nat} (h : exec i s = .next t)
    (ha : i.mnemonic = .push ∨ i.mnemonic = .call → a ≠ s.decSp.sp.toNat) : t.mem.read a = s.mem.read a := by
  obtain ⟨b, -, rfl⟩ | h := exec_next_iff.mp h
  · rfl
  · exact h.read_eq ha

theorem exec_fl_eq (h : exec i s = .next t) (hi : i.mnemonic ≠ .compare) : t.fl = s.fl := by
  obtain ⟨b, -, rfl⟩ | h := exec_next_iff.mp h
  · rfl
  · exact h.fl_eq hi

theorem exec_out_eq (h : exec i s = .next t) (hi : i.mnemonic ≠ .printReg) : t.out = s.out := by
  obtain ⟨b, -, rfl⟩ | h := exec_next_iff.mp h
  · rfl
  · exact h.out_eq hi

theorem exec_run_eq (h : exec i s = .next t) (hw : i.WellFormed) (hi : i.mnemonic ≠ .halt) : t.run = s.run := by
  obtain ⟨b, hb, -⟩ | h := exec_next_iff.mp h
  · exact absurd hw (Instr.not_wellFormed_of_badOperand? hb)
  · exact h.run_eq hi

theorem exec_fault_eq (h : exec i s = .next t) (hw : i.WellFormed) : t.fault = s.fault := by
  obtain ⟨b, hb, -⟩ | h := exec_next_iff.mp h
  · exact absurd hw (Instr.not_wellFormed_of_badOperand? hb)
  · exact h.fault_eq

theorem exec_run_fault_eq_or (h : exec i s = .next t) (hi : i.mnemonic ≠ .halt) :
    (t.run = s.run ∧ t.fault = s.fault) ∨ ¬ i.WellFormed := by
  by_cases hw : i.WellFormed
  · exact .inl ⟨exec_run_eq h hw hi, exec_fault_eq h hw⟩
  · exact .inr hw

end

/-! ## What a step does -/

section
variable {m : OpcodeMap} {s t : State}

/-- What a step can do: it raises a fault that the record then describes, or the instruction at `pc` executes. -/
theorem stepWith_outcome (h : stepWith m s = .next t) :
    s.run = .running ∧
      ((∃ e : Raised, t = s.raise e ∧ (s.PcInRange → FaultRecord.Describes ⟨e.cause, s.pc, e.info⟩ s)) ∨
        ∃ k, s.CanFetch ∧ s.codeByte 0 = m.byte k ∧
          Executes s (buildInstr k (s.codeByte 1) (s.codeByte 2)) t) := by
  obtain ⟨hrun, ⟨hc, rfl⟩ | ⟨hc, -, rfl⟩ | ⟨k, hc, hk, hx⟩⟩ := stepWith_next h <;> refine ⟨hrun, ?_⟩
  · exact .inl ⟨_, rfl, fun hp => .inr (.inl ⟨rfl, hc, if_pos hp⟩)⟩
  · exact .inl ⟨_, rfl, fun _ => .inl ⟨rfl, hc, rfl⟩⟩
  obtain ⟨b, hb, rfl⟩ | hx := exec_next_iff.mp hx
  · obtain ⟨hmem, hbig⟩ := Instr.mem_of_badOperand? hb
    have hbyte : zext9 b = zext9 (s.codeByte 1) ∨ zext9 b = zext9 (s.codeByte 2) :=
      (eq_or_eq_of_mem_registerOperands hmem).imp (congrArg zext9) (congrArg zext9)
    exact .inl ⟨_, rfl, fun _ => .inr (.inr ⟨rfl, hc, by simpa using hbig, hbyte⟩)⟩
  · exact .inr ⟨k, hc, (findMnemonic_eq_some.mp hk).symm, hx⟩

theorem fetchDecode_congr {s' : State} (hmem : s'.mem = s.mem) (hpc : s'.pc = s.pc) :
    fetchDecode m s' = fetchDecode m s := by
  unfold fetchDecode fetch memRead
  rw [hmem, hpc]

/-- Two Running states with the same memory and `pc` raise the same fault or run the same instruction. -/
theorem stepWith_outcome_of_agree {s' : State} (h : stepWith m s = .next t) (hrun : s'.run = s.run)
    (hmem : s'.mem = s.mem) (hpc : s'.pc = s.pc) :
    (∃ e, t = s.raise e ∧ stepWith m s' = .next (s'.raise e)) ∨
      ∃ k, s.codeByte 0 = m.byte k ∧ Executes s (buildInstr k (s.codeByte 1) (s.codeByte 2)) t ∧
        ∀ u, Executes s' (buildInstr k (s.codeByte 1) (s.codeByte 2)) u → stepWith m s' = .next u := by
  obtain ⟨hr, hcases⟩ := stepWith_next h
  have hs' : stepWith m s' = orRaise s' (fetchDecode m s) fun i => exec i s' := by
    rw [stepWith_running (hrun.trans hr), fetchDecode_congr hmem hpc]
  rw [hs']
  obtain ⟨hc, rfl⟩ | ⟨hc, hk, rfl⟩ | ⟨k, hc, hk, hx⟩ := hcases
  · exact .inl ⟨_, rfl, by rw [fetchDecode_of_not_canFetch hc, orRaise_error]⟩
  · exact .inl ⟨_, rfl, by rw [fetchDecode_of_none hc hk, orRaise_error]⟩
  rw [fetchDecode_of_find hc hk, orRaise_ok]
  obtain ⟨b, hb, rfl⟩ | hx := exec_next_iff.mp hx
  · exact .inl ⟨_, rfl, exec_of_badOperand? hb s'⟩
  · exact .inr ⟨k, (findMnemonic_eq_some.mp hk).symm, hx, fun _ => Executes.exec_eq⟩

end


/-! ## Every step keeps the invariant -/

section
variable {m : OpcodeMap} {s t : State} {i : Instr}

theorem Executes.mem_wf (h : Executes s i t) (hs : s.mem.wf) : t.mem.wf := by
  cases h with
  | push | call => exact Memory.wf_write s.mem _ _ hs (BitVec.isLt _)
  | _ => exact hs

/-- A register or a byte of memory as the next `pc` is in range (R29). -/
theorem toNat_zext9_le (b : Byte) : (zext9 b).toNat ≤ 256 := (zext9_lt b).le

/-- The byte after an instruction is in range (R28, R29). -/
theorem State.CanFetch.toNat_pc_add_le (h : s.CanFetch) {n : Nat} (hn : n ≤ 3) :
    (s.pc + BitVec.ofNat 9 n).toNat ≤ 256 := by
  unfold State.CanFetch at h
  rw [BitVec.toNat_add, BitVec.toNat_ofNat]
  omega

theorem Executes.pcInRange (h : Executes s i t) (hc : s.CanFetch) : t.PcInRange := by
  cases h with
  | halt => exact hc.trans (by decide)
  | loadImmediate | add | multiply | compare => exact hc.toNat_pc_add_le (n := 3) (by decide)
  | printReg | push | pop => exact hc.toNat_pc_add_le (n := 2) (by decide)
  | call | ret | jump => exact toNat_zext9_le _
  | jumpIfEqual | jumpIfNotEqual =>
    simp only [State.PcInRange, State.setPc_pc]
    split
    · exact toNat_zext9_le _
    · exact hc.toNat_pc_add_le (n := 2) (by decide)

/-- Taking a fault keeps the invariant where the record describes the fault. -/
theorem State.Inv.raise (hs : s.Inv) {e : Raised} (he : FaultRecord.Describes ⟨e.cause, s.pc, e.info⟩ s) :
    (s.raise e).Inv := by
  obtain ⟨hwf, hpc, -⟩ := hs
  exact ⟨hwf, hpc, fun hne => absurd rfl hne, fun _ => ⟨rfl, he⟩⟩

theorem State.Inv.executes (hs : s.Inv) (hrun : s.run = .running) (hc : s.CanFetch) (h : Executes s i t) : t.Inv := by
  obtain ⟨hwf, -, hnone, -⟩ := hs
  have hfault : t.fault = FaultRecord.none := h.fault_eq.trans (hnone (by simp [hrun]))
  exact ⟨h.mem_wf hwf, h.pcInRange hc, fun _ => hfault, fun hf => absurd hf (h.run_ne_faulted hrun)⟩

theorem stepWith_keeps_inv (hs : s.Inv) (h : stepWith m s = .next t) : t.Inv := by
  obtain ⟨hrun, ⟨e, rfl, he⟩ | ⟨k, hc, -, hx⟩⟩ := stepWith_outcome h
  · exact hs.raise (he hs.2.1)
  · exact hs.executes hrun hc hx

end

/-- Settles O33: a step's two outcomes, the entry of a fault and an execute phase, each keep the invariant. -/
theorem stepKeepsInvariant : Obligations.StepKeepsInvariant :=
  ⟨fun _ _ hs h => stepWith_keeps_inv hs h, fun _ _ _ hs h => stepWith_keeps_inv hs h⟩

/-! ## Reset and load -/

/-- The state after reset has the invariant whatever canonical memory is put under it. -/
theorem inv_resetWith_of_wf (sp : Byte) {mem : Memory} (h : mem.wf) : State.Inv { State.resetWith sp with mem := mem } :=
  ⟨h, Nat.zero_le _, fun _ => rfl, fun hf => absurd hf (by simp [State.resetWith])⟩

theorem resetWith_inv (sp : Byte) : (State.resetWith sp).Inv := inv_resetWith_of_wf sp Memory.wf_nil

/-- Settles O34: reset is the case of the empty memory. -/
theorem resetHasInvariant : Obligations.ResetHasInvariant := ⟨resetWith_inv _, resetWith_inv⟩

theorem resetWith_reg (sp : Byte) (j : RegIndex) : (State.resetWith sp).reg j = if j = 7 then sp else 0x00 := by
  fin_cases j <;> rfl

/-- The load port writes memory only (R128, R191). -/
theorem loadFrom_eq (a : Nat) (bytes : List Byte) (s : State) :
    loadFrom a bytes s = { s with mem := (loadFrom a bytes s).mem } := by
  induction bytes generalizing a s with
  | nil => rfl
  | cons b bytes ih => exact ih (a + 1) (loadWrite (BitVec.ofNat 8 a) b s)

theorem loadFrom_mem_wf (a : Nat) (bytes : List Byte) (s : State) (h : s.mem.wf) : (loadFrom a bytes s).mem.wf := by
  induction bytes generalizing a s with
  | nil => exact h
  | cons b bytes ih => exact ih (a + 1) _ (Memory.wf_write s.mem _ b h (BitVec.isLt _))

/-- A cell of memory after a load: below the first address loaded it is as before, and from there on it holds its byte of the
program, or past the program's end what it held. -/
theorem read_loadFrom (a : Nat) (bytes : List Byte) (s : State) (h : a + bytes.length ≤ 256) (k : Nat) :
    (loadFrom a bytes s).mem.read k =
      if k < a then s.mem.read k else bytes.getD (k - a) (s.mem.read k) := by
  induction bytes generalizing a s with
  | nil => simp [loadFrom]
  | cons b bytes ih =>
    rw [List.length_cons] at h
    have haddr : (BitVec.ofNat 8 a).toNat = a := by
      rw [BitVec.toNat_ofNat]
      omega
    have hread : (loadWrite (BitVec.ofNat 8 a) b s).mem.read k = if k = a then b else s.mem.read k := by
      simp only [loadWrite, haddr, Memory.read_write]
    rw [loadFrom, ih (a + 1) _ (by omega), hread]
    obtain hlt | rfl | hgt := lt_trichotomy k a
    · rw [if_pos (by omega), if_neg (by omega), if_pos hlt]
    · simp
    · have hsucc : k - a = k - (a + 1) + 1 := by omega
      rw [if_neg (by omega), if_neg (by omega), if_neg (by omega), hsucc, List.getD_cons_succ]

theorem hostLoad_some {sp : Byte} {program : List Byte} {s : State} (h : hostLoad sp program = some s) :
    s = { State.resetWith sp with mem := (loadFrom 0 program (State.resetWith sp)).mem } := by
  rw [← loadFrom_eq]
  exact (Option.some.inj (Option.ite_none_right_eq_some.mp h).2).symm

/-- Settles O2: the load writes memory only, and `read_loadFrom` says what every cell then holds. -/
theorem loadPlacesProgramFromZero : Obligations.LoadPlacesProgramFromZero := by
  intro sp program
  constructor
  · intro hlen
    refine ⟨loadFrom 0 program (State.resetWith sp), if_pos hlen, fun a => ?_, fun j => ?_, ?_⟩
    · rw [read_loadFrom 0 program _ (by omega)]
      rfl
    · rw [loadFrom_eq]
      exact resetWith_reg sp j
    · rw [loadFrom_eq]
      exact ⟨rfl, rfl, rfl, rfl, rfl⟩
  · intro hlen
    exact if_neg (Nat.not_le_of_lt hlen)

/-- Settles O35: the loader's writes keep the canonical form, and every other element has its reset value. -/
theorem loadHasInvariant : Obligations.LoadHasInvariant := by
  intro sp program s h
  rw [hostLoad_some h]
  exact inv_resetWith_of_wf sp (loadFrom_mem_wf 0 program _ Memory.wf_nil)

/-! ## Frames -/

/-- Settles O25 by the frame of `exec`: the three write their destination only (R23). -/
theorem frameOfRegisterWriters : Obligations.FrameOfRegisterWriters := by
  rintro i ra s t (⟨imm, rfl⟩ | ⟨rb, rfl⟩ | ⟨rb, rfl⟩) h
  all_goals exact ⟨fun j hj => exec_reg_eq h hj, exec_fl_eq h (nofun), fun a => exec_read_eq h (by simp [Instr.mnemonic]),
    exec_out_eq h (nofun), exec_run_fault_eq_or h (nofun)⟩

/-- Settles O26 by the frame of `exec`: POP writes its destination and the stack pointer (R23). -/
theorem frameOfPop : Obligations.FrameOfPop := by
  intro ra s t h
  refine ⟨fun j hra hsp => exec_reg_eq h (not_or.mpr ⟨hra, hsp⟩), exec_fl_eq h (nofun),
    fun a => exec_read_eq h (by simp [Instr.mnemonic]), exec_out_eq h (nofun), ?_⟩
  simpa [Instr.WellFormed, Instr.registerOperands] using exec_run_fault_eq_or h (nofun)

/-- Settles O27 by the frame of `exec`: a store writes the stack pointer and the byte it then points to (R23, R47). -/
theorem frameOfStores : Obligations.FrameOfStores := by
  rintro i ra s t (rfl | rfl) h
  all_goals
    refine ⟨fun j hj => exec_reg_eq h hj, exec_fl_eq h (nofun), fun a ha => exec_read_eq h fun _ => ha,
      exec_out_eq h (nofun), ?_⟩
    simpa [Instr.WellFormed, Instr.registerOperands] using exec_run_fault_eq_or h (nofun)

/-- Settles O28 by the frame of `exec`: RETURN names no register, so it is always well formed. -/
theorem frameOfReturn : Obligations.FrameOfReturn := by
  intro s t h
  have hw : Instr.ret.WellFormed := by simp [Instr.WellFormed, Instr.registerOperands]
  exact ⟨fun j hj => exec_reg_eq h hj, exec_fl_eq h (nofun), fun a => exec_read_eq h (by simp [Instr.mnemonic]),
    exec_out_eq h (nofun), exec_run_eq h hw (nofun), exec_fault_eq h hw⟩

/-- Settles O29 by the frame of `exec`: none of the six writes a register or stores. -/
theorem frameOfTheOthers : Obligations.FrameOfTheOthers := by
  intro i s t hi h
  have hreg : ∀ j, ¬ i.WritesReg j := by
    cases i with
    | printReg | compare | jump | jumpIfEqual | jumpIfNotEqual | halt => exact fun _ => not_false
    | _ => exact absurd hi (by simp [Instr.mnemonic])
  have hstore : ¬ (i.mnemonic = .push ∨ i.mnemonic = .call) := by
    rintro (e | e) <;> simp [e] at hi
  exact ⟨fun j => exec_reg_eq h (hreg j), fun a => exec_read_eq h fun e => absurd e hstore, exec_fl_eq h, exec_out_eq h,
    fun hne hw => exec_run_eq h hw hne, exec_fault_eq h⟩

/-! ## What a step changes -/

/-- Settles O40: a fault moves no register, and an execute phase only those of `Instr.WritesReg`. -/
theorem registersChangeOnlyWhereNamed : Obligations.RegistersChangeOnlyWhereNamed := by
  intro m s t j h hne
  obtain ⟨-, ⟨e, rfl, -⟩ | ⟨k, hc, hk, hx⟩⟩ := stepWith_outcome h
  · exact absurd rfl hne
  · exact ⟨hc, k, hk, Instr.writesReg_buildInstr (not_not.mp fun hw => hne (hx.reg_eq hw))⟩

/-- Settles O38: a fault prints nothing, and an execute phase only under PRINT_REG. -/
theorem outputGrowsOnlyByPrint : Obligations.OutputGrowsOnlyByPrint := by
  intro m s t h
  obtain ⟨-, ⟨e, rfl, -⟩ | ⟨k, hc, hk, hx⟩⟩ := stepWith_outcome h
  · exact .inl rfl
  by_cases hp : k = .printReg
  · subst hp
    cases hx with
    | printReg ha => exact .inr ⟨namedReg _ ha, hc, hk, rfl, rfl⟩
  · exact .inl (hx.out_eq (by simpa using hp))

/-! ### The next pc (R27) -/

section
variable {s t : State} {i : Instr}

theorem Executes.pc_eq_add_three (h : Executes s i t)
    (hi : i.mnemonic ∈ [Mnemonic.loadImmediate, .add, .multiply, .compare]) : t.pc = s.pc + 3 := by
  cases h with
  | loadImmediate | add | multiply | compare => rfl
  | _ => exact absurd hi (by simp [Instr.mnemonic])

theorem Executes.pc_eq_add_two (h : Executes s i t) (hi : i.mnemonic ∈ [Mnemonic.printReg, .push, .pop]) :
    t.pc = s.pc + 2 := by
  cases h with
  | printReg | push | pop => rfl
  | _ => exact absurd hi (by simp [Instr.mnemonic])

theorem reg_decSp_eq (s : State) (j : RegIndex) : s.decSp.reg j = if j = 7 then s.sp - 1 else s.reg j := by
  rw [State.reg_decSp, ofNat_toNat_add_255]
  rfl

end

/-- Settles O36: a fault leaves `pc`, and each execute phase sets it as R27 says. -/
theorem eachInstructionSetsPc : Obligations.EachInstructionSetsPc := by
  intro m s t h
  obtain ⟨hrun, ⟨e, rfl, -⟩ | ⟨k, -, hk, hx⟩⟩ := stepWith_outcome h
  · exact ⟨fun _ => rfl, fun hne => absurd rfl hne⟩
  refine ⟨fun hf => absurd hf (hx.run_ne_faulted hrun), fun _ k' hk' => ?_⟩
  obtain rfl := m.injective k k' (hk.symm.trans hk')
  refine ⟨fun hm => hx.pc_eq_add_three (by simpa using hm), fun hm => hx.pc_eq_add_two (by simpa using hm), ?_, ?_, ?_⟩
  · rintro rfl
    cases hx
    rfl
  · rintro rfl
    cases hx
    rfl
  intro i hi
  refine ⟨?_, ?_, ?_, ?_⟩ <;> rintro rfl
  · cases hx with
    | call ha =>
      obtain rfl : i = namedReg _ ha := Fin.ext hi
      exact congrArg zext9 (reg_decSp_eq s _)
  all_goals
    cases hx
    obtain rfl : i = namedReg _ ‹_› := Fin.ext hi
    rfl

/-! ### The flag and the output as inputs of a step -/

/-- The execute phase with another flag before it: the flag reaches `pc` only under the conditional jumps, and it is what it was except
under COMPARE (R31). -/
theorem Executes.with_flag {s t : State} {i : Instr} (h : Executes s i t) (f : Flag) :
    ∃ p g, Executes { s with fl := f } i { t with pc := p, fl := g } ∧
      (i.mnemonic ≠ .jumpIfEqual → i.mnemonic ≠ .jumpIfNotEqual → p = t.pc) ∧
      (i.mnemonic = .compare → g = t.fl) ∧ (i.mnemonic ≠ .compare → g = f) := by
  cases h with
  | compare ha hb => exact ⟨_, _, .compare ha hb, fun _ _ => rfl, fun _ => rfl, fun hne => absurd rfl hne⟩
  | jumpIfEqual ha => exact ⟨_, _, .jumpIfEqual ha, fun hne => absurd rfl hne, nofun, fun _ => rfl⟩
  | jumpIfNotEqual ha => exact ⟨_, _, .jumpIfNotEqual ha, fun _ hne => absurd rfl hne, nofun, fun _ => rfl⟩
  | _ => exact ⟨_, f, by constructor, fun _ _ => rfl, nofun, fun _ => rfl⟩

/-- What had been printed before is not read by the execute phase (R36). -/
theorem Executes.with_out {s t : State} {i : Instr} (h : Executes s i t) (before : List Byte) :
    Executes { s with out := before ++ s.out } i { t with out := before ++ t.out } := by
  cases h with
  | printReg ha =>
    rw [State.advance_out, State.emit_out, ← List.append_assoc]
    exact .printReg ha
  | _ => constructor

/-- Settles O39: fetch and decode do not see the output, and neither does the execute phase. -/
theorem outputIsNeverRead : Obligations.OutputIsNeverRead := by
  intro m s t before h
  obtain ⟨e, rfl, hstep⟩ | ⟨k, -, hx, hstep⟩ := stepWith_outcome_of_agree h (s' := { s with out := before ++ s.out }) rfl rfl rfl
  · exact hstep
  · exact hstep _ (hx.with_out before)

/-- R31, first half: a step that changes the flag runs a COMPARE. -/
theorem compare_of_fl_ne {m : OpcodeMap} {s t : State} (h : stepWith m s = .next t) (hne : t.fl ≠ s.fl) :
    s.CanFetch ∧ s.codeByte 0 = m.byte .compare := by
  obtain ⟨-, ⟨e, rfl, -⟩ | ⟨k, hc, hk, hx⟩⟩ := stepWith_outcome h
  · exact absurd rfl hne
  · have hcompare : k = .compare := by
      by_contra hk'
      exact hne (hx.fl_eq (by simpa using hk'))
    exact ⟨hc, hcompare ▸ hk⟩

/-- Settles O37: `compare_of_fl_ne` for what writes the flag, `Executes.with_flag` for what reads it. -/
theorem flagWrittenByCompareReadByJumps : Obligations.FlagWrittenByCompareReadByJumps := by
  refine ⟨fun _ _ _ => compare_of_fl_ne, fun m s t f h => ?_⟩
  obtain ⟨e, rfl, hstep⟩ | ⟨k, hk, hx, hstep⟩ := stepWith_outcome_of_agree h (s' := { s with fl := f }) rfl rfl rfl
  · exact ⟨_, hstep, rfl, rfl, rfl, rfl, rfl, fun _ _ => rfl, fun _ hne => absurd rfl hne, fun _ => rfl⟩
  have hrun : t.run ≠ .faulted := hx.run_ne_faulted (stepWith_next h).1
  have hopcode (j : Mnemonic) : s.codeByte 0 = m.byte j ↔ k = j :=
    ⟨fun hj => m.injective k j (hk.symm.trans hj), fun e => e ▸ hk⟩
  obtain ⟨p, g, hx', hpc, hcompare, hother⟩ := hx.with_flag f
  simp only [buildInstr_mnemonic] at hpc hcompare hother
  simp only [ne_eq, hopcode, hrun, or_false]
  exact ⟨_, hstep _ hx', rfl, rfl, rfl, rfl, rfl, hpc, fun hc _ => hcompare hc, hother⟩

/-! ## Primitives -/

theorem State.setReg_congr (s : State) (i : RegIndex) {v w : Nat} (h : BitVec.ofNat 8 v = BitVec.ofNat 8 w) :
    s.setReg i v = s.setReg i w := by
  rw [State.setReg, State.setReg, h]

/-- Settles O49: the stack pointer's updates are writes of values equal modulo 256 to `SP - 1` and `SP + 1`. -/
theorem registerPrimitives : Obligations.RegisterPrimitives := by
  intro s i j v b
  refine ⟨?_, rfl, ?_, ?_, fun h => checkIndex_of_names h, fun h => checkIndex_of_not_names (Nat.not_lt.mpr h)⟩
  · rw [State.reg_setReg]
    split
    · exact BitVec.toNat_ofNat v 8
    · rfl
  · exact s.setReg_congr spIndex (by rw [ofNat_toNat_add_255, ofNat_toNat_byte])
  · exact s.setReg_congr spIndex (by rw [ofNat_toNat_add_1, ofNat_toNat_byte])

/-- The character of a digit is the byte the model writes for it. -/
theorem digitCode_eq_digitChar {d : Nat} (h : d < 10) : digitCode d = BitVec.ofNat 8 d.digitChar.toNat := by
  rw [Nat.toNat_digitChar_of_lt_ten h]
  rfl

/-- Settles O50: one digit, two digits and three, each split off by division by ten. -/
theorem decimalTextOfAValue : Obligations.DecimalTextOfAValue := by
  intro v
  have hlt := v.isLt
  have hdigit : ∀ n, digitCode (n % 10) = BitVec.ofNat 8 (n % 10).digitChar.toNat :=
    fun n => digitCode_eq_digitChar (Nat.mod_lt n (by decide))
  unfold decimalText
  by_cases h1 : v.toNat < 10
  · simp [h1, Nat.toDigits_of_lt_base, digitCode_eq_digitChar]
  by_cases h2 : v.toNat < 100
  · have hq : v.toNat / 10 < 10 := by omega
    rw [Nat.toDigits_of_base_le (by decide) (by omega), Nat.toDigits_of_lt_base hq]
    simp [h1, h2, hdigit, digitCode_eq_digitChar hq]
  · have hq : v.toNat / 10 / 10 < 10 := by omega
    rw [Nat.toDigits_of_base_le (by decide) (by omega), Nat.toDigits_of_base_le (by decide) (by omega),
      Nat.toDigits_of_lt_base hq]
    have hdiv : v.toNat / 100 = v.toNat / 10 / 10 := by rw [Nat.div_div_eq_div_mul]
    simp [h1, h2, hdigit, hdiv, digitCode_eq_digitChar hq]

end Machine
end Sys2Proof
end

section
/-!
PROOFS. The memory family (20_memory.md). PUSH and CALL are one write to memory at `SP - 1`, said once for each; what a step may change and what
the next fetch reads are read off these and the law of reads after writes.
-/

namespace Sys2Proof.Machine

/-- Settles O48: the two primitives' answers on either side of 256, and the laws of a write. -/
theorem memoryPrimitives : Obligations.MemoryPrimitives := by
  intro a v s
  constructor
  · intro ha
    exact ⟨memRead_of_lt s ha, _, memWrite_of_lt v s ha, fun k => Memory.read_write s.mem a.toNat k v,
      fun hwf => Memory.wf_write s.mem a.toNat v hwf ha, rfl, rfl, rfl, rfl, rfl, rfl⟩
  · intro ha
    exact ⟨memRead_of_not_lt s (Nat.not_lt.mpr ha), memWrite_of_not_lt v s (Nat.not_lt.mpr ha)⟩

/-- The stack pointer after the decrement, as the spec writes it (R93). -/
theorem sp_decSp_eq (s : State) : s.decSp.sp = s.sp - 1 := reg_decSp_eq s spIndex

/-- Settles O41: a fault changes no memory, and an execute phase only under a store, at the decremented stack pointer. -/
theorem memoryChangesOnlyByPushAndCall : Obligations.MemoryChangesOnlyByPushAndCall := by
  intro m s t a h hne
  obtain ⟨-, ⟨e, rfl, -⟩ | ⟨k, hc, hk, hx⟩⟩ := stepWith_outcome h
  · exact absurd rfl hne
  obtain ⟨hstore, ha⟩ : (k = .push ∨ k = .call) ∧ a = s.decSp.sp.toNat := by
    by_contra hno
    exact hne (hx.read_eq fun hm ha => hno ⟨by simpa using hm, ha⟩)
  refine ⟨hc, by rw [ha, sp_decSp_eq], ?_⟩
  obtain rfl | rfl := hstore
  · exact .inl hk
  · exact .inr hk

/-! ## What a store is to the next fetch -/

/-- The return address fits in the byte that CALL stores wherever a step can run a CALL (R105, R125). -/
theorem State.CanFetch.toNat_returnAddress {s : State} (h : s.CanFetch) : s.returnAddress.toNat = s.pc.toNat + 2 := by
  have hsum : (s.pc + 2).toNat = s.pc.toNat + 2 := h.toNat_pc_add (n := 2) (by decide)
  unfold State.CanFetch at h
  rw [State.returnAddress, BitVec.toNat_setWidth, hsum]
  omega

section
variable {ra : Byte} {s t : State}

/-- PUSH stores its register as the decrement left it (R100). -/
theorem mem_eq_write_of_push (ha : NamesRegister ra) (h : exec (.push ra) s = .next t) :
    t.mem = s.mem.write (s.sp - 1).toNat (t.reg (namedReg ra ha)) := by
  rw [exec_push ha] at h
  obtain rfl := Host.Outcome.next.inj h
  rw [← sp_decSp_eq]
  rfl

/-- CALL stores the return address (R105). -/
theorem mem_eq_write_of_call (ha : NamesRegister ra) (h : exec (.call ra) s = .next t) :
    t.mem = s.mem.write (s.sp - 1).toNat s.returnAddress := by
  rw [exec_call ha] at h
  obtain rfl := Host.Outcome.next.inj h
  rw [← sp_decSp_eq]
  rfl

/-- A byte at `pc` or after it, read from memory that one write has changed. -/
theorem codeByte_of_mem_eq_write {a : Nat} {v : Byte} (h : t.mem = s.mem.write a v) (n : Nat) :
    t.codeByte n = if t.pc.toNat + n = a then v else s.mem.read (t.pc.toNat + n) := by
  rw [State.codeByte, h, Memory.read_write]

end

/-- Settles O44: both instructions are one write at `SP - 1`, and the next fetch reads each of its three bytes through that write. -/
theorem storeIsSeenByNextFetch : Obligations.StoreIsSeenByNextFetch := by
  intro i ra v ha s t hi h hfetch
  have hmem : t.mem = s.mem.write (s.sp - 1).toNat v := by
    obtain ⟨rfl, rfl⟩ | ⟨rfl, hc, hv⟩ := hi
    · exact mem_eq_write_of_push ha h
    · obtain rfl : v = s.returnAddress := BitVec.eq_of_toNat_eq (hv.trans hc.toNat_returnAddress.symm)
      exact mem_eq_write_of_call ha h
  exact ⟨_, _, _, fetch_of_canFetch hfetch, codeByte_of_mem_eq_write hmem 0, codeByte_of_mem_eq_write hmem 1,
    codeByte_of_mem_eq_write hmem 2⟩

end Sys2Proof.Machine
end

section
/-!
PROOFS. The encoding family (30_encoding.md). `decodeBytes_eq_ok` says once what the byte-list decoder accepts, an encoding and the bytes after
it, and both round trips are read off it; `decodeWith_byte` and `decodeWith_eq_error` say what the decoder of the step answers on either side
of the opcode map.
-/

namespace Sys2Proof

/-! ## Taking operands off a byte list -/

/-- A built instruction has as many of the candidate bytes as its format declares (R66, R67). -/
@[simp] theorem operands_buildInstr (k : Mnemonic) (opa opb : Byte) :
    (buildInstr k opa opb).operands = [opa, opb].take (operandCount (formatOf k)) := by
  cases k <;> rfl

theorem takeOperands_operands (i : Instr) (rest : List Byte) :
    takeOperands i.mnemonic (i.operands ++ rest) = some (i, rest) := by
  cases i <;> rfl

/-- What can be taken off a byte list for `k`: the operands of an instruction of `k`, in front of the rest. -/
theorem takeOperands_eq_some {k : Mnemonic} {bytes rest : List Byte} {i : Instr} :
    takeOperands k bytes = some (i, rest) ↔ i.mnemonic = k ∧ bytes = i.operands ++ rest := by
  constructor
  · intro h
    unfold takeOperands at h
    split at h
    case h_4 => cases h
    all_goals
      next hcount =>
      obtain ⟨rfl, rfl⟩ := Prod.mk.inj (Option.some.inj h)
      exact ⟨buildInstr_mnemonic .., by rw [operands_buildInstr, hcount]; rfl⟩
  · rintro ⟨rfl, rfl⟩
    exact takeOperands_operands i rest

/-! ## The round trips -/

/-- What the byte-list decoder accepts: exactly an encoding and whatever follows it (R65, R66). -/
theorem decodeBytes_eq_ok {m : OpcodeMap} {bytes rest : List Byte} {i : Instr} :
    decodeBytes m bytes = .ok (i, rest) ↔ bytes = encode m i ++ rest := by
  constructor
  · intro h
    cases bytes with
    | nil => cases h
    | cons ir tail =>
      cases hk : findMnemonic m ir with
      | none => cases (decodeBytes_of_none tail hk).symm.trans h
      | some k =>
        cases ht : takeOperands k tail with
        | none => cases (decodeBytes_of_take_none hk ht).symm.trans h
        | some r =>
          obtain rfl := Except.ok.inj ((decodeBytes_of_take hk ht).symm.trans h)
          obtain ⟨rfl, rfl⟩ := takeOperands_eq_some.mp ht
          rw [← findMnemonic_eq_some.mp hk]
          rfl
  · rintro rfl
    exact decodeBytes_of_take (findMnemonic_byte m i.mnemonic) (takeOperands_operands i rest)

/-- Settles O9: an encoding and what follows it is what the decoder accepts. -/
theorem decodeOfEncode : Obligations.DecodeOfEncode :=
  fun _ _ _ => decodeBytes_eq_ok.mpr rfl

/-- Settles O10: the decoder accepts nothing else, and the fetched operand bytes are those the format takes, then those it leaves. -/
theorem encodeOfDecode : Obligations.EncodeOfDecode := by
  refine ⟨fun _ _ _ _ => decodeBytes_eq_ok.mp, fun m ir opa opb i h => ?_⟩
  obtain ⟨rfl, hi⟩ := decodeWith_ok h
  have hoperands : i.operands = [opa, opb].take (operandCount (formatOf i.mnemonic)) := by
    rw [← operands_buildInstr, ← hi]
  refine ⟨[opa, opb].drop (operandCount (formatOf i.mnemonic)), ?_⟩
  rw [encode, List.cons_append, hoperands, List.take_append_drop]

theorem decodeProgramFuel_cons {m : OpcodeMap} {fuel : Nat} {i : Instr} {rest : List Byte} {program : List Instr}
    (h : decodeProgramFuel m fuel rest = .ok program) :
    decodeProgramFuel m (fuel + 1) (encode m i ++ rest) = .ok (i :: program) := by
  have hi : decodeBytes m (m.byte i.mnemonic :: (i.operands ++ rest)) = .ok (i, rest) := decodeBytes_eq_ok.mpr rfl
  simp only [encode, List.cons_append, decodeProgramFuel, hi, h]

/-- An instruction takes at least one byte, so a program is read back with as much fuel as it has bytes, or more. -/
theorem decodeProgramFuel_encodeProgram (m : OpcodeMap) (program : List Instr) {fuel : Nat}
    (hfuel : (encodeProgram m program).length ≤ fuel) :
    decodeProgramFuel m fuel (encodeProgram m program) = .ok program := by
  induction program generalizing fuel with
  | nil => cases fuel <;> rfl
  | cons i program ih =>
    have hcons : encodeProgram m (i :: program) = encode m i ++ encodeProgram m program := rfl
    rw [hcons, encode, List.length_append, List.length_cons] at hfuel
    obtain ⟨fuel, rfl⟩ : ∃ n, fuel = n + 1 := ⟨fuel - 1, by omega⟩
    exact decodeProgramFuel_cons (ih (by omega))

/-- Settles O11, by induction on the program. -/
theorem programDecodeOfEncode : Obligations.ProgramDecodeOfEncode :=
  fun m program => decodeProgramFuel_encodeProgram m program le_rfl

/-! ## The decoder of the step -/

/-- An opcode of the map decodes, whatever the candidate operand bytes are (R74, R142). -/
theorem decodeWith_byte (m : OpcodeMap) (k : Mnemonic) (opa opb : Byte) :
    decodeWith m (m.byte k) opa opb = .ok (buildInstr k opa opb) :=
  decodeWith_of_find opa opb (findMnemonic_byte m k)

/-- Settles O6: each opcode byte is the default map's for its mnemonic. -/
theorem writtenWordsDecode : Obligations.WrittenWordsDecode :=
  have h := decodeWith_byte defaultOpcodeMap
  ⟨h .loadImmediate 3 255, h .printReg 2 1, h .add 0 1, h .compare 7 0, h .pop 1 0, h .call 1 0, h .halt 0 0⟩

theorem buildInstr_of_format_z {k : Mnemonic} (h : formatOf k = .z) (opa opb opa' opb' : Byte) :
    buildInstr k opa opb = buildInstr k opa' opb' := by
  cases k with
  | halt | ret => rfl
  | _ => cases h

theorem buildInstr_of_format_r {k : Mnemonic} (h : formatOf k = .r) (opa opb opb' : Byte) :
    buildInstr k opa opb = buildInstr k opa opb' := by
  cases k with
  | printReg | push | pop | call | jump | jumpIfEqual | jumpIfNotEqual => rfl
  | _ => cases h

/-- Settles O8: an opcode of the map decodes to the instruction built from it, in which an unused byte does not stand. -/
theorem ignoredBytesTakeNoPart : Obligations.IgnoredBytesTakeNoPart := by
  intro m k opa opb opa' opb'
  simp only [decodeWith_byte]
  exact ⟨fun h => congrArg _ (buildInstr_of_format_z h ..), fun h => congrArg _ (buildInstr_of_format_r h ..), trivial⟩

/-! ## Opcode bytes outside the map -/

theorem decodeWith_eq_error {m : OpcodeMap} {ir opa opb : Byte} :
    decodeWith m ir opa opb = .error (.invalidInstruction ir) ↔ ∀ k, m.byte k ≠ ir := by
  constructor
  · rintro h k rfl
    cases (decodeWith_byte m k opa opb).symm.trans h
  · exact fun h => decodeWith_of_none opa opb (findMnemonic_eq_none.mpr h)

namespace Machine

theorem stepWith_of_invalid_opcode {m : OpcodeMap} {s : State} (hrun : s.run = .running) (hc : s.CanFetch)
    (h : ∀ k, m.byte k ≠ s.codeByte 0) :
    stepWith m s = .next (s.raise ⟨.invalidInstruction, zext9 (s.codeByte 0)⟩) := by
  rw [stepWith_running hrun, fetchDecode_of_none hc (findMnemonic_eq_none.mpr h), orRaise_error]

theorem mem_knownOpcodes {m : OpcodeMap} {b : Byte} : b ∈ knownOpcodes m ↔ ∃ k, m.byte k = b := by
  simp [knownOpcodes, Mnemonic.mem_all]

/-- The 13 opcodes of a map are pairwise different (R71). -/
theorem nodup_knownOpcodes (m : OpcodeMap) : (knownOpcodes m).Nodup :=
  List.Nodup.map (fun j k => m.injective j k) (by decide)

/-- The bytes a map finds, as numbers, are its known opcodes. -/
theorem filter_isSome_perm_knownOpcodes (m : OpcodeMap) :
    ((List.range 256).filter fun n => (findMnemonic m (BitVec.ofNat 8 n)).isSome).Perm
      ((knownOpcodes m).map BitVec.toNat) := by
  refine (List.perm_ext_iff_of_nodup (List.nodup_range.filter _)
    ((nodup_knownOpcodes m).map fun _ _ => BitVec.eq_of_toNat_eq)).mpr fun n => ?_
  simp only [List.mem_filter, List.mem_range, Option.isSome_iff_exists, findMnemonic_eq_some, List.mem_map,
    mem_knownOpcodes]
  constructor
  · rintro ⟨hn, hk⟩
    exact ⟨BitVec.ofNat 8 n, hk, Nat.mod_eq_of_lt hn⟩
  · rintro ⟨b, hk, rfl⟩
    exact ⟨b.isLt, by rwa [ofNat_toNat_byte]⟩

/-- Every map refuses 243 of the 256 opcode bytes: all but its 13 (R72). -/
theorem length_refused_opcodes (m : OpcodeMap) :
    ((List.range 256).filter fun n => (findMnemonic m (BitVec.ofNat 8 n)).isNone).length = 243 := by
  have hfound : ((List.range 256).filter fun n => (findMnemonic m (BitVec.ofNat 8 n)).isSome).length = 13 := by
    rw [(filter_isSome_perm_knownOpcodes m).length_eq]
    rfl
  have htotal := List.length_eq_length_filter_add (l := List.range 256)
    fun n => (findMnemonic m (BitVec.ofNat 8 n)).isSome
  simp only [List.length_range, hfound, Option.not_isSome] at htotal
  omega

/-- The default opcodes in rising order (R70). -/
theorem knownOpcodes_default_perm : (knownOpcodes defaultOpcodeMap).Perm
    [0x01, 0x11, 0x45, 0x46, 0x47, 0x50, 0x54, 0x55, 0x56, 0x82, 0xA0, 0xA2, 0xA7] := by
  decide

/-- Settles O7: the refusal is a failed lookup, and what the default map looks up is its 13 opcodes. -/
theorem invalidOpcodesAreRefused : Obligations.InvalidOpcodesAreRefused := by
  refine ⟨fun _ _ _ _ => decodeWith_eq_error, fun _ _ => stepWith_of_invalid_opcode, fun ir opa opb => ?_,
    fun ir opa opb => ?_, length_refused_opcodes defaultOpcodeMap⟩
  · rw [decode, decodeWith_eq_error, ← knownOpcodes_default_perm.mem_iff, mem_knownOpcodes, not_exists]
  · by_cases h : ∃ k, defaultOpcodeMap.byte k = ir
    · obtain ⟨k, rfl⟩ := h
      exact .inl ⟨_, decodeWith_byte defaultOpcodeMap k opa opb⟩
    · exact .inr (decodeWith_eq_error.mpr (not_exists.mp h))

end Machine
end Sys2Proof
end

section
/-!
PROOFS. The move and output family (40_move_io.md). The fault clauses of the instruction rules are said once for every instruction, a write to
the register an operand byte names once for every destination; each rule is then its `exec` equation read field by field.
-/

namespace Sys2Proof.Machine

/-! ## The faults every instruction rule lists -/

theorem fetchFaultsAboveTop (s : State) : s.FetchFaultsAboveTop := by
  intro m hrun hpc hc
  rw [stepWith_running hrun, fetchDecode_of_not_canFetch hc, if_pos hpc, orRaise_error]

/-- An operand_a that names no register is reported whatever operand_b is (R143). -/
theorem exec_of_operandA_not_names {i : Instr} {ra : Byte} (hi : i.registerOperands.head? = some ra)
    (h : 8 ≤ ra.toNat) (s : State) : exec i s = .next (s.raise ⟨.outOfRangeRegister, zext9 ra⟩) := by
  obtain ⟨rest, hops⟩ := List.head?_eq_some_iff.mp hi
  have hbad : i.badOperand? = some ra := by
    rw [Instr.badOperand?, hops, List.find?_cons_of_pos (by simpa using h)]
  exact exec_of_badOperand? hbad s

/-! ## The two rules -/

/-- A register read after a write to the register a byte names, the index compared as the rules compare it (R22). -/
theorem reg_setReg_namedReg (s : State) {b : Byte} (h : NamesRegister b) (v : Nat) (j : RegIndex) :
    (s.setReg (namedReg b h) v).reg j = if j.val = b.toNat then BitVec.ofNat 8 v else s.reg j := by
  rw [State.reg_setReg]
  exact if_congr Fin.ext_iff rfl rfl

/-- Settles O12: the register clause is `reg_setReg_namedReg` at the immediate, which a byte holds whole. -/
theorem loadImmediateRule : Obligations.LoadImmediateRule := by
  intro ra imm s
  refine ⟨fun _ => rfl, rfl, fun ha => ⟨_, exec_loadImmediate imm ha s, fun j => ?_, rfl, rfl, rfl, rfl, rfl, rfl⟩,
    fun h => exec_of_operandA_not_names rfl h s, fetchFaultsAboveTop s⟩
  rw [State.reg_advance, reg_setReg_namedReg, ofNat_toNat_byte]

/-- One more value on the output is its digits and a line break more in the text (R36). -/
theorem sinkText_concat (lineBreak : Byte) (out : List Byte) (v : Byte) :
    sinkText lineBreak (out ++ [v]) = sinkText lineBreak out ++ decimalText v ++ [lineBreak] := by
  simp [sinkText]

/-- Settles O13: the output is the emitted one, and `sinkText_concat` gives its text. -/
theorem printRegRule : Obligations.PrintRegRule := by
  intro ra s
  exact ⟨fun _ => rfl, rfl,
    fun ha => ⟨_, exec_printReg ha s, rfl, fun lineBreak => sinkText_concat lineBreak s.out _, fun _ => rfl,
      rfl, rfl, rfl, rfl, rfl⟩,
    fun h => exec_of_operandA_not_names rfl h s, fetchFaultsAboveTop s⟩

end Sys2Proof.Machine
end

section
/-!
PROOFS. The ALU family (41_alu.md). An out-of-range operand_b, a byte written to the register operand_a names and the three answers of the
compare are said once; each rule is then its `exec` equation read field by field.
-/

namespace Sys2Proof.Machine

/-- An operand_b that names no register is reported only where operand_a names one (R143, R165). -/
theorem exec_of_operandB_not_names {i : Instr} {ra rb : Byte} (hi : i.registerOperands = [ra, rb])
    (ha : NamesRegister ra) (h : 8 ≤ rb.toNat) (s : State) :
    exec i s = .next (s.raise ⟨.outOfRangeRegister, zext9 rb⟩) := by
  have hbad : i.badOperand? = some rb := by
    rw [Instr.badOperand?, hi, List.find?_cons_of_neg (by simpa using ha), List.find?_cons_of_pos (by simpa using h)]
  exact exec_of_badOperand? hbad s

/-- Every register's value after a byte is written to the register operand_a names, which may also be operand_b or R7 (R22). -/
theorem toNat_reg_advance_setReg_namedReg (s : State) {b : Byte} (h : NamesRegister b) (v : Byte) (n : Nat) (j : RegIndex) :
    (((s.setReg (namedReg b h) v.toNat).advance n).reg j).toNat = if j.val = b.toNat then v.toNat else (s.reg j).toNat := by
  rw [State.reg_advance, reg_setReg_namedReg, ofNat_toNat_byte, apply_ite BitVec.toNat]

/-- Settles O14: the written value is the adder's, a sum modulo 256 (`aluAdd_toNat`). -/
theorem addRule : Obligations.AddRule := by
  intro ra rb s
  refine ⟨fun _ => rfl, rfl, fun ha hb => ⟨_, exec_add ha hb s, fun j => ?_, rfl, rfl, rfl, rfl, rfl, rfl⟩,
    fun h => exec_of_operandA_not_names rfl h s, fun ha h => exec_of_operandB_not_names rfl ha h s, fetchFaultsAboveTop s⟩
  rw [toNat_reg_advance_setReg_namedReg, aluAdd_toNat]

/-- Settles O15: the written value is the multiplier's, a product modulo 256 (`aluMultiply_toNat`). -/
theorem multiplyRule : Obligations.MultiplyRule := by
  intro ra rb s
  refine ⟨fun _ => rfl, rfl, fun ha hb => ⟨_, exec_multiply ha hb s, fun j => ?_, rfl, rfl, rfl, rfl, rfl, rfl⟩,
    fun h => exec_of_operandA_not_names rfl h s, fun ha h => exec_of_operandB_not_names rfl ha h s, fetchFaultsAboveTop s⟩
  rw [toNat_reg_advance_setReg_namedReg, aluMultiply_toNat]

/-- Each answer of the compare is given exactly by its unsigned comparison: the three cases exclude each other (R92). -/
theorem aluCompare_eq_iff (a b : Byte) :
    (aluCompare a b = .less ↔ a.toNat < b.toNat) ∧ (aluCompare a b = .greater ↔ b.toNat < a.toNat) ∧
      (aluCompare a b = .equal ↔ a = b) := by
  rcases lt_trichotomy a.toNat b.toNat with h | h | h
  · have hne : a ≠ b := fun e => h.ne (congrArg BitVec.toNat e)
    simp [aluCompare_of_lt h, h, h.le, hne]
  · obtain rfl := BitVec.eq_of_toNat_eq h
    simp
  · have hne : a ≠ b := fun e => h.ne' (congrArg BitVec.toNat e)
    simp [aluCompare_of_gt h, h, h.le, hne]

/-- Settles O16: the flag is the compare's answer, and `aluCompare_eq_iff` says when it is which. -/
theorem compareRule : Obligations.CompareRule := by
  intro ra rb s
  refine ⟨fun _ => rfl, rfl, fun ha hb => ?_, fun h => exec_of_operandA_not_names rfl h s,
    fun ha h => exec_of_operandB_not_names rfl ha h s, fetchFaultsAboveTop s⟩
  obtain ⟨hless, hgreater, hequal⟩ := aluCompare_eq_iff (s.reg (namedReg ra ha)) (s.reg (namedReg rb hb))
  exact ⟨_, exec_compare ha hb s, hless, hgreater, hequal, fun _ => rfl, rfl, rfl, rfl, rfl, rfl⟩

end Sys2Proof.Machine
end

section
/-!
PROOFS. The stack family (42_stack.md). PUSH's store is read through the law of reads after writes, and the increment after POP's destination
write is said once for both kinds of destination; that POP undoes PUSH follows from the two rules.
-/

namespace Sys2Proof.Machine

/-- Settles O17: the registers are those after the decrement, and memory is one write at the decremented stack pointer. -/
theorem pushRule : Obligations.PushRule := by
  intro ra s
  refine ⟨fun _ => rfl, rfl, fun ha => ⟨_, exec_push ha s, reg_decSp_eq s, fun a => ?_, rfl, rfl, rfl, rfl, rfl⟩,
    fun h => exec_of_operandA_not_names rfl h s, fetchFaultsAboveTop s⟩
  rw [← sp_decSp_eq]
  exact Memory.read_write s.mem _ a _

theorem reg_incSp_eq (s : State) (j : RegIndex) : s.incSp.reg j = if j = 7 then s.sp + 1 else s.reg j := by
  rw [State.reg_incSp, ofNat_toNat_add_1]
  rfl

/-- The increment after a byte is written to the register a byte names: where that is R7, it is the written byte that is
incremented (R101). -/
theorem reg_incSp_setReg_namedReg (s : State) {b : Byte} (h : NamesRegister b) (v : Byte) (j : RegIndex) :
    (s.setReg (namedReg b h) v.toNat).incSp.reg j =
      if j = 7 then (if b.toNat = 7 then v + 1 else s.sp + 1) else if j.val = b.toNat then v else s.reg j := by
  have hsp : (s.setReg (namedReg b h) v.toNat).sp = if b.toNat = 7 then v else s.sp := by
    rw [State.sp, reg_setReg_namedReg, ofNat_toNat_byte]
    exact if_congr eq_comm rfl rfl
  rw [reg_incSp_eq, hsp, reg_setReg_namedReg, ofNat_toNat_byte, apply_ite (· + 1)]

/-- Settles O18: the register clause is `reg_incSp_setReg_namedReg` at the byte loaded from the old stack pointer. -/
theorem popRule : Obligations.PopRule := by
  intro ra s
  exact ⟨fun _ => rfl, rfl,
    fun ha => ⟨_, exec_pop ha s, reg_incSp_setReg_namedReg s ha _, rfl, rfl, rfl, rfl, rfl, rfl⟩,
    fun h => exec_of_operandA_not_names rfl h s, fetchFaultsAboveTop s⟩

/-- Settles O42: POP loads from the slot PUSH stored to, so a register other than R7 gets its own value back. PUSH R7 stores the decremented
stack pointer, which POP R7 loads and increments. -/
theorem pushThenPopRestores : Obligations.PushThenPopRestores := by
  intro r s
  have hr : (BitVec.ofNat 8 r.val).toNat = r.val := Nat.mod_eq_of_lt (by omega)
  have hname : NamesRegister (BitVec.ofNat 8 r.val) := hr.trans_lt r.isLt
  obtain ⟨-, -, hpush, -⟩ := pushRule (BitVec.ofNat 8 r.val) s
  obtain ⟨t, ht, htreg, htmem, -⟩ := hpush hname
  obtain ⟨-, -, hpop, -⟩ := popRule (BitVec.ofNat 8 r.val) t
  obtain ⟨u, hu, hureg, -⟩ := hpop hname
  refine ⟨t, u, ht, hu, fun j => ?_⟩
  have htsp : t.sp = s.sp - 1 := htreg 7
  have hslot : t.mem.read t.sp.toNat = t.reg r := by
    rw [htsp, htmem, if_pos rfl]
    exact congrArg t.reg (Fin.ext hr)
  rw [hureg, hslot, hr, htsp]
  by_cases hj : j = 7
  · subst hj
    have hloaded : r.val = 7 → t.reg r + 1 = s.sp - 1 + 1 := fun h7 => by rw [htreg, if_pos (Fin.ext h7)]
    rw [if_pos rfl, ite_eq_right_iff.mpr hloaded]
    exact BitVec.sub_add_cancel s.sp 1
  · have hloaded : j.val = r.val → t.reg r = t.reg j := fun hjr => by rw [Fin.ext hjr]
    rw [if_neg hj, ite_eq_right_iff.mpr hloaded, htreg, if_neg hj]

end Sys2Proof.Machine
end

section
/-!
PROOFS. The control family (43_control.md). CALL's store is read through the law of reads after writes, and the two conditional jumps are one
write to `pc` of a target chosen by the flag; that RETURN comes back follows from the store and RETURN's rule.
-/

namespace Sys2Proof.Machine

/-! ## The jumps -/

/-- Settles O21: the jump is one write to `pc`, and only operand_a stands in the decoded instruction. -/
theorem jumpRule : Obligations.JumpRule := by
  intro ra s
  exact ⟨fun _ => rfl, rfl, fun m opb => decodeWith_byte m .jump ra opb,
    fun ha => ⟨_, exec_jump ha s, rfl, rfl, rfl, rfl, rfl, rfl, rfl⟩,
    fun h => exec_of_operandA_not_names rfl h s, fetchFaultsAboveTop s⟩

/-- Settles O22: the target is the register on Equal and the next instruction otherwise, and the register-index check comes before the choice. -/
theorem jumpIfEqualRule : Obligations.JumpIfEqualRule := by
  intro ra s
  exact ⟨fun _ => rfl, rfl,
    fun ha => ⟨_, (Executes.jumpIfEqual ha).exec_eq, fun heq => if_pos heq, fun hne => if_neg hne,
      rfl, rfl, rfl, rfl, rfl, rfl⟩,
    fun h => exec_of_operandA_not_names rfl h s, fetchFaultsAboveTop s⟩

/-- Settles O23: Greater and Less are the flag's two states other than Equal, on which the jump is taken. -/
theorem jumpIfNotEqualRule : Obligations.JumpIfNotEqualRule := by
  intro ra s
  have hne : s.fl = .greater ∨ s.fl = .less → s.fl ≠ .equal := by
    rintro (h | h) <;> simp [h]
  exact ⟨fun _ => rfl, rfl,
    fun ha => ⟨_, (Executes.jumpIfNotEqual ha).exec_eq, fun heq => if_neg (not_not.mpr heq), fun h => if_pos (hne h),
      rfl, rfl, rfl, rfl, rfl, rfl⟩,
    fun h => exec_of_operandA_not_names rfl h s, fetchFaultsAboveTop s⟩

/-! ## CALL and RETURN -/

/-- Settles O19: the registers are those after the decrement, and memory is one write of the return address, which a byte holds whole where a
step can run the CALL. -/
theorem callRule : Obligations.CallRule := by
  intro ra s
  refine ⟨fun _ => rfl, rfl,
    fun ha hc => ⟨_, exec_call ha s, reg_decSp_eq s, fun a => ?_, rfl, rfl, rfl, rfl, rfl⟩,
    fun h => exec_of_operandA_not_names rfl h s, fetchFaultsAboveTop s⟩
  rw [mem_eq_write_of_call ha (exec_call ha s), Memory.read_write, apply_ite BitVec.toNat, hc.toNat_returnAddress]

/-- Settles O20: RETURN names no register, so its `exec` equation has no condition. -/
theorem returnRule : Obligations.ReturnRule := by
  intro s
  exact ⟨fun _ => rfl, rfl, fun m opa opb => decodeWith_byte m .ret opa opb,
    ⟨_, exec_ret s, rfl, reg_incSp_eq s, rfl, rfl, rfl, rfl, rfl⟩, fetchFaultsAboveTop s⟩

/-- Settles O43: the slot holds the CALL's address plus 2, which RETURN loads into `pc`, and its increment undoes the CALL's decrement. -/
theorem callThenReturnComesBack : Obligations.CallThenReturnComesBack := by
  intro ra s t u ha hc ht husp hslot
  obtain ⟨-, -, -, ⟨v, hv, hvpc, hvreg, -⟩, -⟩ := returnRule u
  refine ⟨v, hv, ?_, ?_⟩
  · have hreturn : u.mem.read u.sp.toNat = s.returnAddress := by
      rw [husp, hslot, mem_eq_write_of_call ha ht, Memory.read_write_same]
    have hsum : (s.pc + 2).toNat = s.pc.toNat + 2 := hc.toNat_pc_add (n := 2) (by decide)
    apply BitVec.eq_of_toNat_eq
    rw [hvpc, hreturn, zext9_toNat, hc.toNat_returnAddress, hsum]
  · have hvsp : v.sp = u.sp + 1 := hvreg 7
    rw [hvsp, husp]
    exact BitVec.sub_add_cancel s.sp 1

end Sys2Proof.Machine
end

section
/-!
PROOFS. The system family (44_system.md). HALT's `exec` equation read field by field; that no step follows comes from the law of a step's next
states, which has every such step start in Running.
-/

namespace Sys2Proof.Machine

/-- A next state comes only out of Running: in Halted and in Faulted the machine performs no step (R34). -/
theorem stepWith_ne_next {s : State} (h : s.run ≠ .running) (m : OpcodeMap) (t : State) : stepWith m s ≠ .next t :=
  fun hstep => h (stepWith_next hstep).1

/-- Settles O24: the state HALT answers has RUN Halted, which is the halted output and is not Running. -/
theorem haltRule : Obligations.HaltRule := by
  intro s
  refine ⟨fun _ => rfl, rfl, fun m opa opb => decodeWith_byte m .halt opa opb, exec_halt s, fun m t ht => ?_,
    fetchFaultsAboveTop s⟩
  rw [exec_halt] at ht
  cases ht
  have hrun : ({ s with run := .halted } : State).run ≠ .running := RunState.noConfusion
  exact ⟨rfl, stepWith_ne_next hrun m⟩

end Sys2Proof.Machine
end

section
/-!
PROOFS. The step and block family (50_blocks_and_step.md). What a run of an instruction does to `RUN` is said once for every instruction, and
the phases of a step are read off the laws of the fetch, the decode and the register-index check. The block view agrees with the instruction
rules because its checks are `withReg` and `withRegs`, and its datapath, row by row of the control table, is the execute phase.
-/

namespace Sys2Proof

/-- The operand bytes a decoded instruction's format declares as register indices: operand_a in R, RR and RI, operand_b in RR only (R68). -/
theorem registerOperands_buildInstr (k : Mnemonic) (opa opb : Byte) :
    (buildInstr k opa opb).registerOperands =
      if formatOf k = .z then [] else opa :: if formatOf k = .rr then [opb] else [] := by
  cases k <;> rfl

theorem buildInstr_eq_halt {k : Mnemonic} {opa opb : Byte} : buildInstr k opa opb = .halt ↔ k = .halt := by
  cases k <;> simp [buildInstr]

namespace Machine

/-! ## The fetch and the decoded instruction -/

/-- Settles O4: `fetch_of_canFetch` up to 253, and above it the two cases of the address that `fetch_of_not_canFetch` reports. -/
theorem fetchReadsThreeBytes : Obligations.FetchReadsThreeBytes := by
  intro s
  refine ⟨fun h => fetch_of_canFetch h, fun h hle => ?_, fun h => ?_⟩
  · rw [fetch_of_not_canFetch (Nat.not_le.mpr h), if_pos hle]
  · rw [fetch_of_not_canFetch (by unfold State.CanFetch; omega), if_neg (Nat.not_le.mpr h)]

theorem stepWith_of_decodeWith {m : OpcodeMap} {s : State} {i : Instr} (hrun : s.run = .running) (hc : s.CanFetch)
    (h : decodeWith m (s.codeByte 0) (s.codeByte 1) (s.codeByte 2) = .ok i) : stepWith m s = exec i s := by
  obtain ⟨hk, hi⟩ := decodeWith_ok h
  rw [stepWith_running hrun, fetchDecode_of_find hc (findMnemonic_eq_some.mpr hk), orRaise_ok, ← hi]

/-- Settles O5: `step` is `stepWith` at the default map, as `decode` is `decodeWith`. -/
theorem stepRunsTheDecodedInstruction : Obligations.StepRunsTheDecodedInstruction :=
  ⟨fun _ _ _ => stepWith_of_decodeWith, fun _ _ => stepWith_of_decodeWith⟩

/-- Settles O45: the jump writes to `pc` the value it holds, so the machine steps to the state it is in. -/
theorem jumpToItselfNeverEnds : Obligations.JumpToItselfNeverEnds := by
  intro s i n hrun hc hop hra hpc
  have hname : NamesRegister (s.codeByte 1) := hra.trans_lt i.isLt
  obtain rfl : namedReg (s.codeByte 1) hname = i := Fin.ext hra
  have hdecode : decode (s.codeByte 0) (s.codeByte 1) (s.codeByte 2) = .ok (.jump (s.codeByte 1)) := by
    rw [hop]
    exact decodeWith_byte defaultOpcodeMap .jump _ _
  have hstep : step s = .next s := by
    rw [step, stepWith_of_decodeWith hrun hc hdecode, exec_jump hname, hpc]
    rfl
  exact Laws.run_of_step_self core s hstep n

/-! ## The phases of a step and the execution loop -/

/-- Settles O30: each phase is the law of its operation, the register-index checks by the operands the format declares. -/
theorem stepPhasesInOrder : Obligations.StepPhasesInOrder := by
  intro m s
  refine ⟨fun h => stepWith_ne_next h m, fun hrun hpc => ?_⟩
  by_cases hc : s.CanFetch
  · rw [if_pos hc, stepWith_running hrun]
    cases hk : findMnemonic m (s.codeByte 0) with
    | none => rw [fetchDecode_of_none hc hk, orRaise_error]
    | some k =>
      rw [fetchDecode_of_find hc hk, orRaise_ok]
      have hops := registerOperands_buildInstr k (s.codeByte 1) (s.codeByte 2)
      dsimp only
      split_ifs with ha hb
      · exact exec_of_operandA_not_names (by rw [hops, if_neg ha.1]; rfl) ha.2 s
      · have hz : formatOf k ≠ .z := by simp [hb.1]
        exact exec_of_operandB_not_names (by rw [hops, if_neg hz, if_pos hb.1])
          (not_le.mp fun h => ha ⟨hz, h⟩) hb.2 s
      · rfl
  · rw [if_neg hc, fetchFaultsAboveTop s m hrun hpc hc]

theorem stepWith_of_halted {m : OpcodeMap} {s : State} (h : s.run = .halted) : stepWith m s = .fault .runHalted := by
  rw [stepWith, h]

theorem stepWith_of_faulted {m : OpcodeMap} {s : State} (h : s.run = .faulted) : stepWith m s = .fault .runFaulted := by
  rw [stepWith, h]

section
variable {s t : State} {i : Instr}

theorem exists_exec_next (i : Instr) (s : State) : ∃ t, exec i s = .next t := by
  by_cases hw : i.WellFormed
  · obtain ⟨t, ht⟩ := exists_executes hw s
    exact ⟨t, ht.exec_eq⟩
  · obtain ⟨b, -, -, hb⟩ := exec_of_not_wellFormed hw s
    exact ⟨_, hb⟩

theorem exists_stepWith_next (m : OpcodeMap) (hrun : s.run = .running) : ∃ t, stepWith m s = .next t := by
  rw [stepWith_running hrun]
  cases fetchDecode m s with
  | error e => exact ⟨_, orRaise_error ..⟩
  | ok i => exact exists_exec_next i s

/-- An instruction faults exactly by its register-index check (R143). -/
theorem exec_run_eq_faulted_iff (hrun : s.run = .running) (h : exec i s = .next t) :
    t.run = .faulted ↔ ¬ i.WellFormed := by
  by_cases hw : i.WellFormed
  · obtain ⟨u, hu⟩ := exists_executes hw s
    obtain rfl := Host.Outcome.next.inj (hu.exec_eq.symm.trans h)
    exact iff_of_false (hu.run_ne_faulted hrun) (not_not.mpr hw)
  · obtain ⟨b, -, -, hb⟩ := exec_of_not_wellFormed hw s
    obtain rfl := Host.Outcome.next.inj (hb.symm.trans h)
    exact iff_of_true rfl hw

/-- Only HALT halts (R115). -/
theorem exec_run_eq_halted_iff (hrun : s.run = .running) (h : exec i s = .next t) :
    t.run = .halted ↔ i = .halt := by
  obtain ⟨b, hb, rfl⟩ | hx := exec_next_iff.mp h
  · refine iff_of_false nofun ?_
    rintro rfl
    cases hb
  · cases hx with
    | halt => exact iff_of_true rfl rfl
    | _ => exact iff_of_false (fun e => nomatch hrun.symm.trans e) nofun

end

/-- Settles O32: a step from Running answers a next state, and its cases are a failed fetch, a failed decode and an instruction, whose run state
`exec_run_eq_faulted_iff` and `exec_run_eq_halted_iff` give. -/
theorem executionLoopTransitions : Obligations.ExecutionLoopTransitions := by
  intro m s
  refine ⟨beq_iff_eq, beq_iff_eq, fun hrun => ?_, stepWith_of_halted, stepWith_of_faulted⟩
  obtain ⟨t, ht⟩ := exists_stepWith_next m hrun
  refine ⟨t, ht, ?_⟩
  obtain ⟨-, ⟨hc, rfl⟩ | ⟨hc, hk, rfl⟩ | ⟨k, hc, hk, hx⟩⟩ := stepWith_next ht
  · simp [hc]
  · have hopcode := findMnemonic_eq_none.mp hk
    simp [decodeWith_of_none _ _ hk, (hopcode .halt).symm]
  · have hhalt : s.codeByte 0 = m.byte .halt ↔ k = .halt := by
      rw [← findMnemonic_eq_some.mp hk]
      exact ⟨m.injective k .halt, congrArg m.byte⟩
    have hfaulted := exec_run_eq_faulted_iff hrun hx
    refine ⟨?_, fun hne => exec_fault_eq hx (not_not.mp (mt hfaulted.mpr hne)), ?_⟩
    · rw [exec_run_eq_halted_iff hrun hx, buildInstr_eq_halt, hhalt, and_iff_right hc]
    · simp [hfaulted, hc, decodeWith_of_find _ _ hk]

/-! ## The blocks -/

/-- Settles O47: the select picks the operation, `aluAdd_toNat` and `aluMultiply_toNat` give its value, and a register holds a byte whole. -/
theorem aluBlockOperations : Obligations.AluBlockOperations := by
  refine ⟨fun a b fl s i => ?_, fun k => by cases k <;> decide⟩
  have hstored (y : Byte) : (s.setReg i y.toNat).reg i = y := by rw [State.reg_setReg_same, ofNat_toNat_byte]
  exact ⟨⟨_, rfl, aluAdd_toNat a b, hstored _⟩, ⟨_, rfl, aluMultiply_toNat a b, hstored _⟩, rfl, rfl⟩

theorem orRaise_map {α β : Type} (s : State) (r : Except Raised α) (f : α → β) (k : β → Result) :
    orRaise s (r.map f) k = orRaise s r fun x => k (f x) := by
  cases r <;> rfl

/-- A check the control word asks for is the instruction rules' check (R143). -/
theorem orRaise_checkIf_true (b : Byte) (s : State) (k : Option RegIndex → Result) :
    orRaise s (checkIf true b) k = withReg b s fun i => k (some i) :=
  orRaise_map s (checkIndex b) some k

/-- A row that asks for the check of operand_a only: the formats R and RI. -/
theorem blockExec_of_checkA {k : Mnemonic} (ha : (controlWord k).checkA = true) (hb : (controlWord k).checkB = false)
    (opa opb : Byte) (s : State) :
    blockExec k opa opb s = withReg opa s fun i => datapath (controlWord k) (some i) none opb s := by
  rw [blockExec, ha, hb]
  exact orRaise_checkIf_true opa s _

/-- A row that asks for both checks: the format RR. -/
theorem blockExec_of_checkB {k : Mnemonic} (ha : (controlWord k).checkA = true) (hb : (controlWord k).checkB = true)
    (opa opb : Byte) (s : State) :
    blockExec k opa opb s = withRegs opa opb s fun i j => datapath (controlWord k) (some i) (some j) opb s := by
  rw [blockExec, ha, hb, orRaise_checkIf_true]
  exact congrArg (withReg opa s) (funext fun i => orRaise_checkIf_true opb s _)

/-- Each row of the control table drives the blocks as its instruction rule says. The rows put RUN to Running or Halted, so the two agree only from
Running; a memory access is at the 8-bit stack pointer, so PUSH and CALL always store, and the conditional jumps are compared flag by flag. -/
theorem blockExec_eq_exec {s : State} (hrun : s.run = .running) (k : Mnemonic) (opa opb : Byte) :
    blockExec k opa opb s = exec (buildInstr k opa opb) s := by
  obtain ⟨mem, regs, pc, fl, run, fault, out⟩ := s
  obtain rfl : run = .running := hrun
  cases k with
  | halt => rfl
  | ret => exact orRaise_map ..
  | loadImmediate | printReg | jump => exact blockExec_of_checkA rfl rfl ..
  | add | multiply | compare => exact blockExec_of_checkB rfl rfl ..
  | pop =>
    rw [blockExec_of_checkA rfl rfl]
    exact congrArg (withReg opa _) (funext fun i => orRaise_map ..)
  | push | call =>
    rw [blockExec_of_checkA rfl rfl]
    refine congrArg (withReg opa _) (funext fun i => ?_)
    simp only [datapath, controlWord, driveMemory, memWrite_zext9]
    rfl
  | jumpIfEqual | jumpIfNotEqual =>
    rw [blockExec_of_checkA rfl rfl]
    cases fl <;> rfl

/-- Settles O46: the two steps share the fetch and the lookup of the opcode, and `blockExec_eq_exec` compares what they do with an instruction. -/
theorem controlTableAgreesWithRules : Obligations.ControlTableAgreesWithRules := by
  intro m s
  cases hrun : s.run with
  | halted => rw [blockStep, hrun, stepWith_of_halted hrun]
  | faulted => rw [blockStep, hrun, stepWith_of_faulted hrun]
  | running =>
    rw [stepWith_running hrun, blockStep, hrun]
    by_cases hc : s.CanFetch
    · rw [fetch_of_canFetch hc, orRaise_ok]
      cases hk : findMnemonic m (s.codeByte 0) with
      | none => simp only [fetchDecode_of_none hc hk, orRaise_error]
      | some k => simp only [fetchDecode_of_find hc hk, orRaise_ok, blockExec_eq_exec hrun]
    · simp only [fetch_of_not_canFetch hc, fetchDecode_of_not_canFetch hc, orRaise_error]

end Machine
end Sys2Proof
end

section
/-!
PROOFS. The exceptions family (60_exceptions.md): a step that ends in Faulted is the fault entry `State.raise` in the state of its start, and
what a fault left behind is what the trace, which reads neither `RUN` nor `FAULT`, still shows.
-/

namespace Sys2Proof.Machine

/-- A step that ends in Faulted has raised, in its fetch, its decode or its register-index check, and done nothing else (R166). The cause needs no
reachable `pc`, unlike the record's `info` in `stepWith_outcome`. -/
theorem stepWith_faulted {m : OpcodeMap} {s t : State} (h : stepWith m s = .next t) (hf : t.run = .faulted) :
    ∃ e : Raised, t = s.raise e ∧
      e.cause ∈ [FaultCause.invalidInstruction, .outOfRangeMemory, .outOfRangeRegister] := by
  obtain ⟨hrun, ⟨-, rfl⟩ | ⟨-, -, rfl⟩ | ⟨k, -, -, hx⟩⟩ := stepWith_next h
  · exact ⟨_, rfl, by simp⟩
  · exact ⟨_, rfl, by simp⟩
  · obtain ⟨b, -, rfl⟩ | hx := exec_next_iff.mp hx
    · exact ⟨_, rfl, by simp⟩
    · exact absurd hf (hx.run_ne_faulted hrun)

/-- Settles O31: by `stepWith_faulted` the step is the fault entry, whose fields the laws of `State.raise` give. -/
theorem faultEntryChangesOnlyRunAndFault : Obligations.FaultEntryChangesOnlyRunAndFault := by
  refine ⟨fun _ _ => rfl, fun m s t h hf => ?_⟩
  obtain ⟨e, rfl, hcause⟩ := stepWith_faulted h hf
  exact ⟨rfl, rfl, rfl, rfl, rfl, rfl, hcause⟩

/-- Settles O51: `State.trace` is built from `pc`, memory and the registers alone, and `traceByte` bounds each of its three addresses by itself. -/
theorem traceShowsPcBytesRegisters : Obligations.TraceShowsPcBytesRegisters :=
  fun _ _ _ _ _ => ⟨rfl, rfl, rfl, rfl⟩

end Sys2Proof.Machine
end

section
/-!
PROOFS. The reset and hazards family (70_reset_and_hazards.md). Reset is `State.resetWith` whatever state it is asserted in; what a load leaves is
`loadPlacesProgramFromZero`, at whose `pc` 0 the fetch succeeds.
-/

namespace Sys2Proof.Machine

/-- Settles O1: `hostReset` drops the state it is given, and `State.resetWith` holds the reset values. -/
theorem resetGivesEveryElementItsValue : Obligations.ResetGivesEveryElementItsValue :=
  ⟨fun sp _ => ⟨Memory.read_nil, resetWith_reg sp, rfl, rfl, rfl, rfl, rfl⟩, fun _ => rfl⟩

/-- The host refuses a program that does not fit into memory (R149, R191). -/
theorem length_le_of_hostLoad {sp : Byte} {program : List Byte} {s : State} (h : hostLoad sp program = some s) :
    program.length ≤ 256 :=
  (Option.ite_none_right_eq_some.mp h).1

/-- The first fetch after a load reads the first three bytes of the program (R141, R192). -/
theorem fetch_of_hostLoad {sp : Byte} {program : List Byte} {s : State} (h : hostLoad sp program = some s) :
    fetch s = .ok (program.getD 0 0x00, program.getD 1 0x00, program.getD 2 0x00) := by
  obtain ⟨t, ht, hread, -, hpc, -⟩ := (loadPlacesProgramFromZero sp program).1 (length_le_of_hostLoad h)
  obtain rfl : s = t := Option.some.inj (h.symm.trans ht)
  have hzero : s.pc.toNat = 0 := by rw [hpc]; rfl
  have hc : s.CanFetch := hzero.trans_le (Nat.zero_le 253)
  rw [(fetchReadsThreeBytes s).1 hc, hzero, hread, hread, hread]

/-- `MEM_FILL` is no opcode of the default map (R70, R72). -/
theorem defaultOpcodeMap_byte_ne_memFill (k : Mnemonic) : defaultOpcodeMap.byte k ≠ Config.memFill := by
  cases k <;> decide

/-- Settles O3: a load's first fetch is `fetch_of_hostLoad`; with nothing loaded the byte at 0 is `MEM_FILL`, which is no opcode. -/
theorem firstStepFetchesAtZero : Obligations.FirstStepFetchesAtZero :=
  ⟨fun _ _ _ => fetch_of_hostLoad, stepWith_of_invalid_opcode rfl (Nat.zero_le 253) defaultOpcodeMap_byte_ne_memFill⟩

end Sys2Proof.Machine
end
